-- ==== Sys2Proof/Word.lean ====
section
/-! DEFINITION. The word type of INESDEC: the 8-bit byte (00_scope.md R7, R8: every quantity is unsigned,
bit 0 is the least significant bit; 20_memory.md R50: the only access size is one byte). -/

namespace Sys2Proof

/-- A byte of the input stream, of the header staging buffer or of a result buffer. -/
abbrev Byte := BitVec 8

end Sys2Proof
end

