-- ==== Sys2Proof/Config.lean ====
section
/-! DEFINITION. What is fixed when INESDEC is built (00_scope.md R6) and the free values of the model
(93_implementation_defined.md U5; notes/assumptions/4.md). -/

namespace Sys2Proof

/-- The two readings of a suspect flag test (00_scope.md R6, glossary): "mask non-zero" against "masked value
equals 1". -/
inductive FlagTest where
  | intended
  | reference
  deriving DecidableEq, Repr

/-- `HEADER_BYTES`: bytes the Header Decoder consumes (R6). -/
def Config.headerBytes : Nat := 16

/-- `PRG_UNIT`: bytes per program-code unit (R6). -/
def Config.prgUnit : Nat := 0x4000

/-- `CHR_UNIT`: bytes per graphics-data unit (R6). -/
def Config.chrUnit : Nat := 0x2000

/-- `PRG_MAX_BYTES` (R6). -/
def Config.prgMaxBytes : Nat := 0x3FC000

/-- `CHR_MAX_BYTES` (R6). -/
def Config.chrMaxBytes : Nat := 0x1FE000

/-- `PC_MAX`: the largest value `pc` ever holds (R6). -/
def Config.pcMax : Nat := 0x5FA010

/-- `PRG_BUF_BYTES`: capacity of the PRG buffer (R6). -/
def Config.prgBufBytes : Nat := 0x3FC000

/-- `CHR_BUF_BYTES`: capacity of the CHR buffer (R6). -/
def Config.chrBufBytes : Nat := 0x1FE000

/-- `TRAINER_SKIP_BYTES`: bytes skipped between header and program code (R6; 20_memory.md R64). -/
def Config.trainerSkipBytes : Nat := 0

/-- `TRAINER_TEST`, the value INESDEC is built with (R6; 92_eei_decisions.md D6). -/
def Config.trainerTest : FlagTest := .intended

/-- `IGNMIRR_TEST`, the value INESDEC is built with (R6; 92_eei_decisions.md D7). -/
def Config.ignmirrTest : FlagTest := .intended

/-- FREE VALUE (log 4, DESIGN CHOICE, safe): what cell `k` of `hbuf` reads as inside the hardware while it is
unwritten, in the run numbered `epoch`. -/
opaque Config.unwrittenHeaderByte (epoch k : Nat) : Byte

/-- FREE VALUE (log 4, DESIGN CHOICE, safe): what `x[prg_rom_size]` reads as inside the hardware while it is
unwritten, in the run numbered `epoch`. -/
opaque Config.unwrittenPrgRomSize (epoch : Nat) : BitVec 22

/-- FREE VALUE (log 4, DESIGN CHOICE, safe): what `x[chr_rom_size]` reads as inside the hardware while it is
unwritten, in the run numbered `epoch`. -/
opaque Config.unwrittenChrRomSize (epoch : Nat) : BitVec 8

end Sys2Proof
end

