-- ==== Sys2Proof/Syntax.lean ====
section
/-! DEFINITION. The fourteen operations of INESDEC (00_scope.md R12), one constructor per row of the operation
table. A field decoder HDR.* carries the header bytes its row reads, each in place, holding only the bits the
row names (30_encoding.md R98; log 10). The other operations have no operand in their code: what they work on
(the source's answer, `pc`, `hbuf`, the counters) is machine state. -/

namespace Sys2Proof

inductive Instr where
  /-- HDEC, one beat of the Header Decoder (40_header_decoder.md R110). -/
  | hdec
  /-- HDR.TAG, header bytes 0 to 3 (R112). -/
  | hdrTag (t0 t1 t2 t3 : Byte)
  /-- HDR.PRGSZ, header byte 4 (R113). -/
  | hdrPrgsz (units : Byte)
  /-- HDR.CHRSZ, header byte 5 (R114). -/
  | hdrChrsz (units : Byte)
  /-- HDR.MIRR, flag byte A, bits 0 and 3 (R115). -/
  | hdrMirr (a : Byte)
  /-- HDR.PERS, flag byte A, bit 1 (R116). -/
  | hdrPers (a : Byte)
  /-- HDR.TRNR, flag byte A, bit 2 (R117). -/
  | hdrTrnr (a : Byte)
  /-- HDR.MAPPER, the high nibbles of flag bytes A and B (R118). -/
  | hdrMapper (a b : Byte)
  /-- HDR.PRGRAM, header byte 8 (R119). -/
  | hdrPrgram (units : Byte)
  /-- HDR.PAD, the header bytes 9 to 15, whose bits no rule reads (R120, R92). -/
  | hdrPad
  /-- RDPRG, one beat of the program-code region (41_region_reader.md R130). -/
  | rdprg
  /-- RDCHR, one beat of the graphics-data region (R132). -/
  | rdchr
  /-- DECODE, the whole run (42_image_assembler.md R140). -/
  | decode
  /-- RESET, the `rst` input (70_reset_and_hazards.md R190). -/
  | reset
  deriving DecidableEq, Repr

end Sys2Proof
end

