-- ==== Sys2Proof/Machine/State.lean ====
section
/-! DEFINITION. The state of one INESDEC instance (10_state.md R20), its reset value (R36), and the reasons a step
can stop. Everything is plain data. -/

namespace Sys2Proof.Machine

/-- The sequencer register's values (10_state.md R25). Codes 5 to 7 are no stage and have no constructor
(93_implementation_defined.md U3). -/
inductive Stage where
  | hdr
  | prg
  | chr
  | done
  | fail
  deriving DecidableEq, Repr

/-- The values of `err` (10_state.md R26, 60_exceptions.md R160). -/
inductive ErrKind where
  | none
  | truncatedHeader
  | truncatedRegionPrg
  | truncatedRegionChr
  | unreadableSource
  deriving DecidableEq, Repr

/-- The values of `x[mirroring]` (10_state.md R21). `unspecified` is a value like the others
(93_implementation_defined.md X1). -/
inductive Mirroring where
  | horizontal
  | vertical
  | unspecified
  deriving DecidableEq, Repr

/-- One answer of the byte source (20_memory.md R54). -/
inductive Answer where
  | byte (b : Byte)
  | eos
  | unreadable
  deriving DecidableEq, Repr

/-- A complete HeaderRecord (10_state.md R21). -/
structure HeaderRecord where
  formatTag : BitVec 32
  prgRomSize : BitVec 22
  chrRomSize : BitVec 8
  prgRamSize : BitVec 8
  mirroring : Mirroring
  hasPersistentStorage : Bool
  hasTrainer : Bool
  mapperNumber : BitVec 8
  deriving DecidableEq, Repr

/-- The eight result registers `x[0]` to `x[7]`; `none` is the spec's own unwritten value (10_state.md R20, R21,
R23; log 3). -/
structure HeaderRegs where
  formatTag : Option (BitVec 32)
  prgRomSize : Option (BitVec 22)
  chrRomSize : Option (BitVec 8)
  prgRamSize : Option (BitVec 8)
  mirroring : Option Mirroring
  hasPersistentStorage : Option Bool
  hasTrainer : Option Bool
  mapperNumber : Option (BitVec 8)
  deriving DecidableEq, Repr

/-- The levels on the input ports of 10_state.md R34 at one moment. -/
structure Pins where
  rst : Bool
  srcAck : Bool
  srcKind : BitVec 2
  srcData : Byte
  deriving DecidableEq, Repr

/-- Every input port low: no reset, no answer. -/
def Pins.idle : Pins := ⟨false, false, 0#2, 0#8⟩

/-- A byte-addressed result buffer: (address, byte) pairs, addresses strictly rising; an unlisted address holds no
value (10_state.md R31, R36; log 3). -/
abbrev Memory := List Host.Cell

/-- The canonical form: addresses strictly rising. No entry can equal what an unlisted address reads as, since that
is no value at all. -/
def Memory.wf : Memory → Bool
  | [] => true
  | [_] => true
  | c :: d :: m => decide (c.1 < d.1) && Memory.wf (d :: m)

/-- The state tuple of 10_state.md R20, then the model's own `epoch` (log 4), `pins` and `feed` (log 1). -/
structure State where
  stage : Stage
  pc : BitVec 23
  err : ErrKind
  hbuf : Vector (Option Byte) 9
  x : HeaderRegs
  prgLen : BitVec 22
  chrLen : BitVec 21
  prg : Memory
  chr : Memory
  /-- The model's own: how many resets this state has seen; the index of the free values. -/
  epoch : Nat
  /-- The model's own: the input ports at this moment. -/
  pins : Pins
  /-- The model's own: the input ports at the moments after this one; all low once the list is spent. -/
  feed : List Pins
  deriving DecidableEq, Repr

/-- All eight result registers unwritten (10_state.md R36). -/
def HeaderRegs.unwritten : HeaderRegs := ⟨none, none, none, none, none, none, none, none⟩

/-- The state right after reset (10_state.md R36), with the model's own fields at the values log 1 and log 4 name. -/
def State.reset : State :=
  { stage := .hdr
    pc := 0#23
    err := .none
    hbuf := #v[none, none, none, none, none, none, none, none, none]
    x := HeaderRegs.unwritten
    prgLen := 0#22
    chrLen := 0#21
    prg := []
    chr := []
    epoch := 0
    pins := Pins.idle
    feed := [] }

/-- Faults. None is reachable from reset. -/
inductive Fault where
  /-- Raised by a beat of HDEC, HDR.PAD, RDPRG, RDCHR or DECODE that accepts a byte while `pc` holds 2^23 - 1: the
  sum does not fit and the spec says the cursor never wraps (10_state.md R24). Safe (log 5). -/
  | cursorFull
  /-- Raised by RDPRG (and DECODE) writing PRG at an address at or beyond `PRG_BUF_BYTES`, which does not exist
  (10_state.md R31). Safe (log 6). -/
  | prgAddress
  /-- Raised by RDCHR (and DECODE) writing CHR at an address at or beyond `CHR_BUF_BYTES`, which does not exist
  (10_state.md R31). Safe (log 6). -/
  | chrAddress
  deriving DecidableEq, Repr

/-- Refusals. -/
inductive Refusal where
  /-- Raised by an arm of exec whose operation has no meaning yet; no arm of this model. Safe. -/
  | notModelled (mnemonic : String)
  /-- Raised by a beat of HDEC, HDR.PAD, RDPRG, RDCHR or DECODE when the source presents `src_kind` = 3, which is
  not an answer (30_encoding.md R90). Safe (log 7). -/
  | notAnAnswer
  /-- Raised by a host read that has no specified value (93_implementation_defined.md U1, U2, 92_eei_decisions.md
  D15), never by a step. Safe (log 13). -/
  | hostReadUnspecified
  deriving DecidableEq, Repr

end Sys2Proof.Machine
end

