-- ==== Sys2Proof/Machine/Operands.lean ====
section
/-! DEFINITION. The values the field decoders assemble from header bytes, flags apart (30_encoding.md R83 to R85,
40_header_decoder.md R112 to R114, R118, R119), and the byte length of the graphics region (R84). -/

namespace Sys2Proof.Machine

/-- HDR.TAG: the raw copy of four bytes, byte k in bits 8k+7:8k (40_header_decoder.md R112, 10_state.md R21). -/
def tagValue (t0 t1 t2 t3 : Byte) : BitVec 32 := t3 ++ t2 ++ t1 ++ t0

/-- `tag[k]` of a flattened format tag (10_state.md R21). -/
def tagByte (tag : BitVec 32) (k : Nat) : Byte := tag.extractLsb' (8 * k) 8

/-- HDR.PRGSZ: the byte as an unsigned number, times 0x4000 (R113, R83). -/
def prgszValue (units : Byte) : BitVec 22 := BitVec.ofNat 22 (units.toNat * Config.prgUnit)

/-- HDR.CHRSZ: the byte itself, a unit count (R114, R84). -/
def chrszValue (units : Byte) : BitVec 8 := units

/-- HDR.MAPPER: the high nibble of B in place, plus the high nibble of A moved down (R118, R85). -/
def mapperValue (a b : Byte) : BitVec 8 := (b &&& 0xF0#8) + (a >>> 4)

/-- HDR.PRGRAM: the byte itself (R119). -/
def prgramValue (units : Byte) : BitVec 8 := units

/-- `chr_bytes`: the byte length of a graphics region of this many units (30_encoding.md R84). -/
def chrBytes (units : BitVec 8) : BitVec 21 := BitVec.ofNat 21 (units.toNat * Config.chrUnit)

end Sys2Proof.Machine
end

