-- ==== Sys2Proof/Machine/Flags.lean ====
section
/-! DEFINITION. The flag computations of the Header Decoder (40_header_decoder.md R115 to R117), for both values of
the build parameters, and the derived status signals (10_state.md R32, R33). -/

namespace Sys2Proof.Machine

/-- The "ignore mirroring" test on flag byte A bit 3 (R115). -/
def ignoreMirroring (test : FlagTest) (a : Byte) : Bool :=
  match test with
  | .intended => a &&& 0x08#8 != 0#8
  | .reference => a &&& 0x08#8 == 1#8

/-- The base mirroring, flag byte A bit 0 (R115). -/
def baseMirroring (a : Byte) : Mirroring :=
  if a &&& 0x01#8 == 0x01#8 then .vertical else .horizontal

/-- HDR.MIRR (R115). -/
def mirrValue (test : FlagTest) (a : Byte) : Mirroring :=
  if ignoreMirroring test a then .unspecified else baseMirroring a

/-- HDR.PERS, flag byte A bit 1 (R116). -/
def persValue (a : Byte) : Bool := a &&& 0x02#8 == 0x02#8

/-- HDR.TRNR, flag byte A bit 2 (R117). -/
def trnrValue (test : FlagTest) (a : Byte) : Bool :=
  match test with
  | .intended => a &&& 0x04#8 != 0#8
  | .reference => a &&& 0x04#8 == 1#8

/-- `done` (10_state.md R33). -/
def State.done (s : State) : Bool := s.stage == .done

/-- `fail` (R33). -/
def State.failed (s : State) : Bool := s.stage == .fail

/-- `src_req`: the source is being asked for the byte at `pc` (R33). -/
def State.srcReq (s : State) : Bool := s.stage == .hdr || s.stage == .prg || s.stage == .chr

/-- `prg_present` (R32). -/
def prgPresent (size : BitVec 22) : Bool := decide (0#22 < size)

/-- `chr_present` (R32). -/
def chrPresent (units : BitVec 8) : Bool := decide (0#8 < units)

end Sys2Proof.Machine
end

