-- ==== Sys2Proof/Machine/Ops.lean ====
section
/-! DEFINITION. The named operations over buffers, registers and the source: `MemRead`, `MemWrite`, `Next()`, `raise`
and the state writes of the beats (00_scope.md R9). -/

namespace Sys2Proof.Machine

/-- How an operation ends. -/
abbrev Result := Host.Outcome State Fault Refusal

/-- Go on with the next state of `r`; a fault or a refusal ends the operation. -/
def onNext (r : Result) (f : State → Result) : Result :=
  match r with
  | .next t => f t
  | .fault e => .fault e
  | .refused e => .refused e

/-- `MemRead(buffer, a, 1)`; `none` is the unwritten value (10_state.md R31). -/
def Memory.read : Memory → Nat → Option Byte
  | [], _ => none
  | c :: m, a => if c.1 = a then some c.2 else Memory.read m a

/-- `MemWrite(buffer, a, 1, b)`, keeping the addresses strictly rising. -/
def Memory.write : Memory → Nat → Byte → Memory
  | [], a, b => [(a, b)]
  | c :: m, a, b =>
    if a < c.1 then (a, b) :: c :: m
    else if a = c.1 then (a, b) :: m
    else c :: Memory.write m a b

/-- Header byte k as the hardware reads it from `hbuf`; a free value while the cell is unwritten (log 4). -/
def State.hbufByte (s : State) (k : Fin 9) : Byte :=
  (s.hbuf.get k).getD (Config.unwrittenHeaderByte s.epoch k)

/-- The nine bytes `DecodeHeader` is applied to (40_header_decoder.md R111). -/
def State.headerBytes (s : State) : Vector Byte 9 := Vector.ofFn s.hbufByte

/-- `x[prg_rom_size]` as the sequencer and RDPRG read it; a free value while it is unwritten (log 4). -/
def State.prgRomSize (s : State) : BitVec 22 := s.x.prgRomSize.getD (Config.unwrittenPrgRomSize s.epoch)

/-- `x[chr_rom_size]` as the sequencer and RDCHR read it; a free value while it is unwritten (log 4). -/
def State.chrRomSize (s : State) : BitVec 8 := s.x.chrRomSize.getD (Config.unwrittenChrRomSize s.epoch)

/-- The registers holding a complete record. -/
def HeaderRecord.regs (r : HeaderRecord) : HeaderRegs :=
  ⟨some r.formatTag, some r.prgRomSize, some r.chrRomSize, some r.prgRamSize, some r.mirroring,
    some r.hasPersistentStorage, some r.hasTrainer, some r.mapperNumber⟩

/-- The record the registers hold, if none of them is unwritten. -/
def HeaderRegs.record (x : HeaderRegs) : Option HeaderRecord :=
  match x with
  | ⟨some t, some p, some c, some r, some m, some s, some n, some k⟩ => some ⟨t, p, c, r, m, s, n, k⟩
  | _ => none

/-- `stage <- S` (42_image_assembler.md R141). -/
def State.setStage (s : State) (g : Stage) : State := { s with stage := g }

/-- `pc <- pc + 1` (10_state.md R24). -/
def State.advancePc (s : State) : State := { s with pc := s.pc + 1#23 }

/-- `hbuf[k] <- b`; nothing for k beyond 8 (10_state.md R29). -/
def State.storeHeaderByte (s : State) (k : Nat) (b : Byte) : State :=
  { s with hbuf := s.hbuf.setIfInBounds k (some b) }

/-- `x[0..7] <- r`, all eight at once (10_state.md R22). -/
def State.latchHeader (s : State) (r : HeaderRecord) : State := { s with x := r.regs }

/-- The result registers replaced by `x`. -/
def State.setX (s : State) (x : HeaderRegs) : State := { s with x := x }

/-- `PRG[prg_len] <- b`, then `prg_len <- prg_len + 1` (41_region_reader.md R130). -/
def State.appendPrg (s : State) (b : Byte) : State :=
  { s with prg := s.prg.write s.prgLen.toNat b, prgLen := s.prgLen + 1#22 }

/-- `CHR[chr_len] <- b`, then `chr_len <- chr_len + 1` (41_region_reader.md R132). -/
def State.appendChr (s : State) (b : Byte) : State :=
  { s with chr := s.chr.write s.chrLen.toNat b, chrLen := s.chrLen + 1#21 }

/-- `raise E`: the one trap entry. It writes `err` and `stage` and nothing else (60_exceptions.md R166). There is no
return from it: only reset leaves FAIL (R171). -/
def State.raise (s : State) (e : ErrKind) : State := { s with err := e, stage := .fail }

/-- The state reset gives (10_state.md R36, 70_reset_and_hazards.md R190): every piece of the spec's state at its
reset value whatever it held, the inputs untouched, and a new epoch for the free values (log 4, log 16). -/
def State.restart (s : State) : State :=
  { State.reset with epoch := s.epoch + 1, pins := s.pins, feed := s.feed }

/-- The next moment: the input ports take their next levels, all low once the feed is spent (log 1). -/
def State.tick (s : State) : State :=
  { s with pins := s.feed.headD Pins.idle, feed := s.feed.tail }

/-- What the source presents on its ports at one moment (10_state.md R34, 30_encoding.md R90). -/
inductive Presented where
  | nothing
  | answer (a : Answer)
  | notAnAnswer
  deriving DecidableEq, Repr

/-- Reading `src_ack`, `src_kind` and `src_data` (30_encoding.md R90). -/
def Pins.presented (p : Pins) : Presented :=
  if p.srcAck = false then .nothing
  else if p.srcKind = 0#2 then .answer (.byte p.srcData)
  else if p.srcKind = 1#2 then .answer .eos
  else if p.srcKind = 2#2 then .answer .unreadable
  else .notAnAnswer

/-- What one `Next()` gives (20_memory.md R56). -/
inductive Fetched where
  /-- A byte, and the state with the cursor advanced. -/
  | byte (b : Byte) (s : State)
  | eos
  | unreadable
  /-- No beat: nothing is asked for, or nothing is answered yet (10_state.md R34; log 2). -/
  | noBeat
  /-- The cursor cannot count one more byte (log 5). -/
  | cursorFull
  /-- `src_kind` = 3 (log 7). -/
  | notAnAnswer
  deriving DecidableEq, Repr

/-- `Next()`: take the source's answer for offset `pc`; a byte advances `pc` by 1, the other answers leave it
(20_memory.md R56, 10_state.md R24). -/
def State.fetchNext (s : State) : Fetched :=
  if s.srcReq = false then .noBeat
  else match s.pins.presented with
    | .nothing => .noBeat
    | .notAnAnswer => .notAnAnswer
    | .answer .eos => .eos
    | .answer .unreadable => .unreadable
    | .answer (.byte b) => if s.pc = BitVec.allOnes 23 then .cursorFull else .byte b s.advancePc

/-- One beat of a stage operation: a byte goes on to `onByte` with the cursor advanced, `EOS` raises `short`,
`UNREADABLE` raises UnreadableSource (40_header_decoder.md R110, 41_region_reader.md R130, R132, 60_exceptions.md
R161 to R164); without a beat nothing changes (00_scope.md R10, 42_image_assembler.md R152). -/
def beat (short : ErrKind) (onByte : Byte → State → Result) (s : State) : Result :=
  match s.fetchNext with
  | .byte b t => onByte b t
  | .eos => .next (s.raise short)
  | .unreadable => .next (s.raise .unreadableSource)
  | .noBeat => .next s
  | .cursorFull => .fault .cursorFull
  | .notAnAnswer => .refused .notAnAnswer

end Sys2Proof.Machine
end

