-- ==== Sys2Proof/Machine/Sequencer.lean ====
section
/-! DEFINITION. The stage that follows a completed stage (42_image_assembler.md R142, R143) and the stage codes
(30_encoding.md R87). -/

namespace Sys2Proof.Machine

/-- `AfterHeader` (R142). -/
def afterHeader (prgRomSize : BitVec 22) (chrRomSize : BitVec 8) : Stage :=
  if prgPresent prgRomSize then .prg else if chrPresent chrRomSize then .chr else .done

/-- `AfterPrg` (R143). -/
def afterPrg (chrRomSize : BitVec 8) : Stage := if chrPresent chrRomSize then .chr else .done

/-- Format STAGE3 (30_encoding.md R87). -/
def Stage.code : Stage → BitVec 3
  | .hdr => 0b000#3
  | .prg => 0b001#3
  | .chr => 0b010#3
  | .done => 0b011#3
  | .fail => 0b100#3

/-- The stage a STAGE3 code names, if any (R87). -/
def stageOfCode (c : BitVec 3) : Option Stage :=
  if c = 0b000#3 then some .hdr
  else if c = 0b001#3 then some .prg
  else if c = 0b010#3 then some .chr
  else if c = 0b011#3 then some .done
  else if c = 0b100#3 then some .fail
  else none

/-- DONE and FAIL are the terminal stages (10_state.md R25). -/
def Stage.terminal (g : Stage) : Bool := g == .done || g == .fail

end Sys2Proof.Machine
end

