-- ==== Sys2Proof/Machine/Header.lean ====
section
/-! DEFINITION. The Header Decoder: HDEC and the nine field decoders HDR.* (40_header_decoder.md). -/

namespace Sys2Proof.Machine

/-- `DecodeHeader` for given flag tests: the pure function from the nine kept bytes to the HeaderRecord (R111). -/
def decodeHeaderWith (ignmirr trainer : FlagTest) (h : Vector Byte 9) : HeaderRecord :=
  { formatTag := tagValue h[0] h[1] h[2] h[3]
    prgRomSize := prgszValue h[4]
    chrRomSize := chrszValue h[5]
    prgRamSize := prgramValue h[8]
    mirroring := mirrValue ignmirr h[6]
    hasPersistentStorage := persValue h[6]
    hasTrainer := trnrValue trainer h[6]
    mapperNumber := mapperValue h[6] h[7] }

/-- `DecodeHeader` of INESDEC, with the flag tests it is built with (R111, 00_scope.md R6). -/
def decodeHeader (h : Vector Byte 9) : HeaderRecord :=
  decodeHeaderWith Config.ignmirrTest Config.trainerTest h

/-- What the last header byte does: all eight registers written at once, and the next stage (R110, R111). -/
def State.finishHeader (s : State) : State :=
  let r := decodeHeader s.headerBytes
  (s.latchHeader r).setStage (afterHeader r.prgRomSize r.chrRomSize)

/-- What header byte `b`, the byte at offset `k`, does once the cursor has counted it (R110). -/
def State.acceptHeaderByte (k : BitVec 23) (b : Byte) (s : State) : State :=
  let s1 := if k ≤ 8#23 then s.storeHeaderByte k.toNat b else s
  if k = 15#23 then s1.finishHeader else s1

/-- HDEC, one beat (R110). -/
def execHdec (s : State) : Result :=
  beat .truncatedHeader (fun b t => .next (t.acceptHeaderByte s.pc b)) s

/-- HDR.TAG (R112; alone it writes its own register, log 8). -/
def execHdrTag (t0 t1 t2 t3 : Byte) (s : State) : Result :=
  .next (s.setX { s.x with formatTag := some (tagValue t0 t1 t2 t3) })

/-- HDR.PRGSZ (R113). -/
def execHdrPrgsz (units : Byte) (s : State) : Result :=
  .next (s.setX { s.x with prgRomSize := some (prgszValue units) })

/-- HDR.CHRSZ (R114). -/
def execHdrChrsz (units : Byte) (s : State) : Result :=
  .next (s.setX { s.x with chrRomSize := some (chrszValue units) })

/-- HDR.MIRR (R115). -/
def execHdrMirr (a : Byte) (s : State) : Result :=
  .next (s.setX { s.x with mirroring := some (mirrValue Config.ignmirrTest a) })

/-- HDR.PERS (R116). -/
def execHdrPers (a : Byte) (s : State) : Result :=
  .next (s.setX { s.x with hasPersistentStorage := some (persValue a) })

/-- HDR.TRNR (R117). -/
def execHdrTrnr (a : Byte) (s : State) : Result :=
  .next (s.setX { s.x with hasTrainer := some (trnrValue Config.trainerTest a) })

/-- HDR.MAPPER (R118). -/
def execHdrMapper (a b : Byte) (s : State) : Result :=
  .next (s.setX { s.x with mapperNumber := some (mapperValue a b) })

/-- HDR.PRGRAM (R119). -/
def execHdrPrgram (units : Byte) (s : State) : Result :=
  .next (s.setX { s.x with prgRamSize := some (prgramValue units) })

/-- HDR.PAD, one padding byte: consumed, written nowhere, with the errors of any HDEC beat (R120; log 9). -/
def execHdrPad (s : State) : Result :=
  beat .truncatedHeader (fun _ t => .next t) s

end Sys2Proof.Machine
end

