-- ==== Sys2Proof/Machine/Region.lean ====
section
/-! DEFINITION. The Region Reader: RDPRG and RDCHR (41_region_reader.md). -/

namespace Sys2Proof.Machine

/-- What a program-code byte does once the cursor has counted it (R130). -/
def State.acceptPrgByte (b : Byte) (s : State) : State :=
  let t := s.appendPrg b
  if t.prgLen = t.prgRomSize then t.setStage (afterPrg t.chrRomSize) else t

/-- RDPRG, one beat (R130); an address beyond the buffer does not exist (10_state.md R31; log 6). -/
def execRdprg (s : State) : Result :=
  beat .truncatedRegionPrg
    (fun b t => if t.prgLen.toNat < Config.prgBufBytes then .next (t.acceptPrgByte b) else .fault .prgAddress) s

/-- What a graphics byte does once the cursor has counted it (R132). -/
def State.acceptChrByte (b : Byte) (s : State) : State :=
  let t := s.appendChr b
  if t.chrLen = chrBytes t.chrRomSize then t.setStage .done else t

/-- RDCHR, one beat (R132); an address beyond the buffer does not exist (10_state.md R31; log 6). -/
def execRdchr (s : State) : Result :=
  beat .truncatedRegionChr
    (fun b t => if t.chrLen.toNat < Config.chrBufBytes then .next (t.acceptChrByte b) else .fault .chrAddress) s

end Sys2Proof.Machine
end

