-- ==== Sys2Proof/Machine/Assembler.lean ====
section
/-! DEFINITION. The Image Assembler: RESET and DECODE (42_image_assembler.md, 70_reset_and_hazards.md R190). -/

namespace Sys2Proof.Machine

/-- RESET (70_reset_and_hazards.md R190): whatever the stage, and an answer presented then is ignored. -/
def execReset (s : State) : Result := .next s.restart

/-- One beat as a function of the state, by stage; the terminal stages take no step (42_image_assembler.md R156,
R152). -/
def stageBeat (s : State) : Result :=
  match s.stage with
  | .hdr => execHdec s
  | .prg => execRdprg s
  | .chr => execRdchr s
  | .done => .next s
  | .fail => .next s

/-- One moment of the input ports: reset wins over a beat (42_image_assembler.md R141, 70_reset_and_hazards.md
R190). -/
def moment (s : State) : Result := if s.pins.rst then execReset s else stageBeat s

/-- The run itself: moment after moment until a terminal stage, along the later moments `feed`. When the feed is
spent the source never answers again and the run stays where it is (42_image_assembler.md R140, R154; log 14). -/
def runFrom : List Pins → State → Result
  | [], s => if s.stage.terminal then .next s else onNext (moment s) fun t => .next t.tick
  | _ :: feed, s => if s.stage.terminal then .next s else onNext (moment s) fun t => runFrom feed t.tick

/-- DECODE: one whole run, from the reset state, over the answers the source will give (R140; log 14). -/
def execDecode (s : State) : Result := runFrom s.feed s.restart

end Sys2Proof.Machine
end

