-- ==== Sys2Proof/Machine/Dispatch.lean ====
section
/-! DEFINITION. The arms of exec, one per operation of the table. -/

namespace Sys2Proof.Machine

def exec (i : Instr) (s : State) : Host.Outcome State Fault Refusal :=
  match i with
  | .hdec => Sys2Proof.Machine.execHdec s
  | .hdrTag t0 t1 t2 t3 => Sys2Proof.Machine.execHdrTag t0 t1 t2 t3 s
  | .hdrPrgsz units => Sys2Proof.Machine.execHdrPrgsz units s
  | .hdrChrsz units => Sys2Proof.Machine.execHdrChrsz units s
  | .hdrMirr a => Sys2Proof.Machine.execHdrMirr a s
  | .hdrPers a => Sys2Proof.Machine.execHdrPers a s
  | .hdrTrnr a => Sys2Proof.Machine.execHdrTrnr a s
  | .hdrMapper a b => Sys2Proof.Machine.execHdrMapper a b s
  | .hdrPrgram units => Sys2Proof.Machine.execHdrPrgram units s
  | .hdrPad => Sys2Proof.Machine.execHdrPad s
  | .rdprg => Sys2Proof.Machine.execRdprg s
  | .rdchr => Sys2Proof.Machine.execRdchr s
  | .decode => Sys2Proof.Machine.execDecode s
  | .reset => Sys2Proof.Machine.execReset s

end Sys2Proof.Machine
end

