-- ==== Sys2Proof/WellFormed.lean ====
section
/-! DEFINITION. Which terms of `Instr` an encoding can stand for: an operand byte of a field decoder holds no bit
outside those its table row names (30_encoding.md R82, R98). Whole-byte operands admit every value (R91: no
header value is illegal). -/

namespace Sys2Proof

/-- The bits of flag byte A that HDR.MIRR reads: 0 and 3 (30_encoding.md R82). -/
def mirrMask : Byte := 0x09#8

/-- The bit of flag byte A that HDR.PERS reads: 1 (R82). -/
def persMask : Byte := 0x02#8

/-- The bit of flag byte A that HDR.TRNR reads: 2 (R82). -/
def trnrMask : Byte := 0x04#8

/-- The bits of flag bytes A and B that HDR.MAPPER reads: 7 to 4 (R82). -/
def nibbleMask : Byte := 0xF0#8

/-- `b` holds no bit outside `mask`. -/
def onlyBits (mask b : Byte) : Bool := b &&& mask == b

def Instr.wellFormed : Instr → Bool
  | .hdec => true
  | .hdrTag _ _ _ _ => true
  | .hdrPrgsz _ => true
  | .hdrChrsz _ => true
  | .hdrMirr a => onlyBits mirrMask a
  | .hdrPers a => onlyBits persMask a
  | .hdrTrnr a => onlyBits trnrMask a
  | .hdrMapper a b => onlyBits nibbleMask a && onlyBits nibbleMask b
  | .hdrPrgram _ => true
  | .hdrPad => true
  | .rdprg => true
  | .rdchr => true
  | .decode => true
  | .reset => true

end Sys2Proof
end

