-- ==== Sys2Proof/Decode.lean ====
section
/-! DEFINITION. The codes that select and feed the operations, the decoder and the encoder. Formats: STAGE3, the
3-bit stage register (30_encoding.md R87); HDR16, the 16 header bytes (R81, R82); `rst`, one bit
(70_reset_and_hazards.md R190); and no code at all for DECODE (R98). -/

namespace Sys2Proof

/-- What the hardware holds up to be decoded, by format (30_encoding.md R80, R98). In an HDR16 word header byte k
stands in bits 8k+7:8k, as the operation table numbers them. -/
inductive Code where
  | stage3 (c : BitVec 3)
  | hdr16 (h : BitVec 128)
  | run
  | signal (b : BitVec 1)
  deriving DecidableEq, Repr

/-- The rows of the operation table. -/
inductive Row where
  | hdec | hdrTag | hdrPrgsz | hdrChrsz | hdrMirr | hdrPers | hdrTrnr | hdrMapper | hdrPrgram | hdrPad
  | rdprg | rdchr | decode | reset
  deriving DecidableEq, Repr

/-- Why a code gives no operation. -/
inductive Reject where
  /-- Stage codes 3 and 4: no beat happens (R87). -/
  | terminalStage
  /-- Stage codes 5, 6 and 7: not a stage (R87). -/
  | notAStage
  /-- `rst` is low: no reset is asked for. -/
  | resetLow
  /-- The row does not match this code. -/
  | otherRow
  deriving DecidableEq, Repr

/-- Header byte k of an HDR16 word (30_encoding.md R81). -/
def headerByte (h : BitVec 128) (k : Nat) : Byte := h.extractLsb' (8 * k) 8

/-- The operands a field decoder takes from a header: the bytes and bits its table row names, in place
(30_encoding.md R81, R82, R98). -/
def decodeTag (h : BitVec 128) : Instr :=
  .hdrTag (headerByte h 0) (headerByte h 1) (headerByte h 2) (headerByte h 3)

def decodePrgsz (h : BitVec 128) : Instr := .hdrPrgsz (headerByte h 4)

def decodeChrsz (h : BitVec 128) : Instr := .hdrChrsz (headerByte h 5)

def decodeMirr (h : BitVec 128) : Instr := .hdrMirr (headerByte h 6 &&& mirrMask)

def decodePers (h : BitVec 128) : Instr := .hdrPers (headerByte h 6 &&& persMask)

def decodeTrnr (h : BitVec 128) : Instr := .hdrTrnr (headerByte h 6 &&& trnrMask)

def decodeMapper (h : BitVec 128) : Instr :=
  .hdrMapper (headerByte h 6 &&& nibbleMask) (headerByte h 7 &&& nibbleMask)

def decodePrgram (h : BitVec 128) : Instr := .hdrPrgram (headerByte h 8)

/-- The operation a stage code selects (30_encoding.md R87). -/
def decodeStage (c : BitVec 3) : Except Reject Instr :=
  if c = 0b000#3 then .ok .hdec
  else if c = 0b001#3 then .ok .rdprg
  else if c = 0b010#3 then .ok .rdchr
  else if c = 0b011#3 ∨ c = 0b100#3 then .error .terminalStage
  else .error .notAStage

/-- One row of the operation table against one code: its match and mask, then its operands. Every HDR.* row has
mask 0, so every header matches it (R91, R98). -/
def decodeRow : Row → Code → Except Reject Instr
  | .hdec, .stage3 c => if c = 0b000#3 then .ok .hdec else .error .otherRow
  | .rdprg, .stage3 c => if c = 0b001#3 then .ok .rdprg else .error .otherRow
  | .rdchr, .stage3 c => if c = 0b010#3 then .ok .rdchr else .error .otherRow
  | .hdrTag, .hdr16 h => .ok (decodeTag h)
  | .hdrPrgsz, .hdr16 h => .ok (decodePrgsz h)
  | .hdrChrsz, .hdr16 h => .ok (decodeChrsz h)
  | .hdrMirr, .hdr16 h => .ok (decodeMirr h)
  | .hdrPers, .hdr16 h => .ok (decodePers h)
  | .hdrTrnr, .hdr16 h => .ok (decodeTrnr h)
  | .hdrMapper, .hdr16 h => .ok (decodeMapper h)
  | .hdrPrgram, .hdr16 h => .ok (decodePrgram h)
  | .hdrPad, .hdr16 _ => .ok .hdrPad
  | .decode, .run => .ok .decode
  | .reset, .signal b => if b = 1#1 then .ok .reset else .error .otherRow
  | _, _ => .error .otherRow

/-- The rows in the table's order. -/
def rows : List Row :=
  [.hdec, .hdrTag, .hdrPrgsz, .hdrChrsz, .hdrMirr, .hdrPers, .hdrTrnr, .hdrMapper, .hdrPrgram, .hdrPad,
    .rdprg, .rdchr, .decode, .reset]

/-- Every operation a code stands for: one for a control code, all nine field decoders for a header
(30_encoding.md R98). -/
def decodeAll (c : Code) : List Instr := rows.filterMap fun r => (decodeRow r c).toOption

/-- The decoder: the first row of the table that a code matches, or why none does. A header matches nine rows
(`decodeAll`); the first of them is HDR.TAG (log 11). -/
def decode : Code → Except Reject Instr
  | .stage3 c => decodeStage c
  | .hdr16 h => .ok (decodeTag h)
  | .run => .ok .decode
  | .signal b => if b = 1#1 then .ok .reset else .error .resetLow

/-- The header with byte `b` at offset `k` and zeros elsewhere. -/
def placeByte (k : Nat) (b : Byte) : BitVec 128 := b.setWidth 128 <<< (8 * k)

/-- The encoder: the code of an operation; header bits its row does not name are 0. -/
def encode : Instr → Code
  | .hdec => .stage3 0b000#3
  | .hdrTag t0 t1 t2 t3 => .hdr16 (placeByte 0 t0 ||| placeByte 1 t1 ||| placeByte 2 t2 ||| placeByte 3 t3)
  | .hdrPrgsz b => .hdr16 (placeByte 4 b)
  | .hdrChrsz b => .hdr16 (placeByte 5 b)
  | .hdrMirr a => .hdr16 (placeByte 6 a)
  | .hdrPers a => .hdr16 (placeByte 6 a)
  | .hdrTrnr a => .hdr16 (placeByte 6 a)
  | .hdrMapper a b => .hdr16 (placeByte 6 a ||| placeByte 7 b)
  | .hdrPrgram b => .hdr16 (placeByte 8 b)
  | .hdrPad => .hdr16 0#128
  | .rdprg => .stage3 0b001#3
  | .rdchr => .stage3 0b010#3
  | .decode => .run
  | .reset => .signal 1#1

/-- The row an operation belongs to. -/
def Instr.row : Instr → Row
  | .hdec => .hdec
  | .hdrTag _ _ _ _ => .hdrTag
  | .hdrPrgsz _ => .hdrPrgsz
  | .hdrChrsz _ => .hdrChrsz
  | .hdrMirr _ => .hdrMirr
  | .hdrPers _ => .hdrPers
  | .hdrTrnr _ => .hdrTrnr
  | .hdrMapper _ _ => .hdrMapper
  | .hdrPrgram _ => .hdrPrgram
  | .hdrPad => .hdrPad
  | .rdprg => .rdprg
  | .rdchr => .rdchr
  | .decode => .decode
  | .reset => .reset

/-- The HDR16 word of sixteen header bytes given in stream order (byte 0 first); missing bytes are 0. -/
def headerWord (bs : List Byte) : BitVec 128 :=
  (List.range 16).foldl (fun w k => w ||| placeByte k (bs.getD k 0#8)) 0#128

/-- The code a table word stands for. The format is read off the row's width: 0 bits DECODE, 1 bit `rst`, 3 bits
(8 in whole bytes) STAGE3, 128 bits HDR16 (log 11). -/
def tableCode (nbits w : Nat) : Option Code :=
  if nbits = 0 then some .run
  else if nbits = 1 then (if w < 2 then some (.signal (BitVec.ofNat 1 w)) else none)
  else if nbits = 3 ∨ nbits = 8 then (if w < 8 then some (.stage3 (BitVec.ofNat 3 w)) else none)
  else if nbits = 128 then (if w < 2 ^ 128 then some (.hdr16 (BitVec.ofNat 128 w)) else none)
  else none

/-- The operation the decoder reads from a word of `nbits` bits, numbered as the operation table numbers them. -/
def decodeTableWord (nbits w : Nat) : Option Instr :=
  match tableCode nbits w with
  | some c => (decode c).toOption
  | none => none

end Sys2Proof
end

