-- ==== Sys2Proof/Machine/Fetch.lean ====
section
/-! DEFINITION. Which code selects the operation of a moment (30_encoding.md R98), and how a code is put where the
next step finds it (log 12). -/

namespace Sys2Proof.Machine

/-- The code that selects the operation: `rst` whatever the stage holds, else the stage register (R98). -/
def State.fetchCode (s : State) : Code :=
  if s.pins.rst then .signal 1#1 else .stage3 s.stage.code

/-- The source presenting a byte. -/
def Pins.byte (b : Byte) : Pins := ⟨false, true, 0#2, b⟩

/-- `s` at the first byte after a header with these size bytes and zeros elsewhere. -/
def State.pastHeader (s : State) (byte4 byte5 : Byte) : State :=
  let h : Vector Byte 9 := #v[0#8, 0#8, 0#8, 0#8, byte4, byte5, 0#8, 0#8, 0#8]
  { s with pc := 16#23, hbuf := h.map some, x := (decodeHeader h).regs }

/-- `s` with stage `g` in the stage register; a region stage comes after a header that asks for one unit of that
region. -/
def State.placeStage (s : State) (g : Stage) : State :=
  match g with
  | .hdr => s.setStage .hdr
  | .prg => (s.pastHeader 1#8 0#8).setStage .prg
  | .chr => (s.pastHeader 0#8 1#8).setStage .chr
  | .done => s.setStage .done
  | .fail => s.setStage .fail

/-- `s` with code `c` placed so that the next step runs it (log 12): a stage code in the stage register and a zero
byte presented; a header as the nine kept bytes with the sixteenth byte presented; `rst` on its port; a run as the
reset state with a zero byte presented. -/
def State.placeCode (c : Code) (s : State) : State :=
  match c with
  | .stage3 g =>
    match stageOfCode g with
    | some g => { s.placeStage g with pins := Pins.byte 0#8 }
    | none => s
  | .hdr16 h =>
    { s with
      stage := .hdr
      pc := 15#23
      hbuf := Vector.ofFn fun k => some (headerByte h k)
      pins := Pins.byte (headerByte h 15) }
  | .run => { s.restart with pins := Pins.byte 0#8 }
  | .signal b => { s with pins := { Pins.idle with rst := b == 1#1 } }

end Sys2Proof.Machine
end

