-- ==== Sys2Proof/Machine/Step.lean ====
section
/-! DEFINITION. One step: one moment of the input ports (log 2). -/

namespace Sys2Proof.Machine

/-- The operation that `rst` or the stage register selects runs; in a terminal stage none does
(42_image_assembler.md R152, R156). Then the input ports take their next levels. -/
def step (s : State) : Host.Outcome State Fault Refusal :=
  match decode s.fetchCode with
  | .ok i => onNext (exec i s) fun t => .next t.tick
  | .error _ => .next s.tick

/-- `s` with the operation of table word `w` placed where the next step finds it (log 12). -/
def State.withFetchWord (s : State) (nbits w : Nat) : State :=
  match tableCode nbits w with
  | some c => s.placeCode c
  | none => s

end Sys2Proof.Machine
end

