-- ==== Sys2Proof/Machine/HostPort.lean ====
section
/-! DEFINITION. What the host sees: the DecodedImage and the observation (10_state.md R37, R38), the output ports
(R34) and the two buffer read ports (20_memory.md R70). A read with no specified value is refused
(93_implementation_defined.md U1, U2; log 13). None of this is a step: host reads have no side effect. -/

namespace Sys2Proof.Machine

/-- The assembled result (10_state.md R37). -/
structure DecodedImage where
  header : HeaderRecord
  prgRom : Option (List Byte)
  chrRom : Option (List Byte)
  deriving DecidableEq, Repr

/-- The observation (10_state.md R38). -/
inductive Obs where
  | ok (image : DecodedImage)
  | error (e : ErrKind)
  | busy
  deriving DecidableEq, Repr

/-- The bytes at addresses 0 to n - 1; `none` if one of them is unwritten. -/
def Memory.block (m : Memory) : Nat → Option (List Byte)
  | 0 => some []
  | n + 1 =>
    match Memory.block m n, m.read n with
    | some bs, some b => some (bs ++ [b])
    | _, _ => none

/-- A region's block: absent when its size is zero, else the bytes below its counter (R37). -/
def optionalBlock (present : Bool) (m : Memory) (len : Nat) : Option (Option (List Byte)) :=
  if present then (m.block len).map some else some none

/-- `Image(s)` (R37); `none` if it would read an unwritten register or byte, which no reachable DONE state does. -/
def State.image (s : State) : Option DecodedImage :=
  match s.x.record with
  | none => none
  | some r =>
    match optionalBlock (prgPresent r.prgRomSize) s.prg s.prgLen.toNat,
        optionalBlock (chrPresent r.chrRomSize) s.chr s.chrLen.toNat with
    | some p, some c => some ⟨r, p, c⟩
    | _, _ => none

/-- `Obs(s)` (R38); `none` only where `Image(s)` has no value. -/
def State.obs (s : State) : Option Obs :=
  match s.stage with
  | .done => s.image.map .ok
  | .fail => some (.error s.err)
  | .hdr => some .busy
  | .prg => some .busy
  | .chr => some .busy

/-- Code numbers of `err` (30_encoding.md R88). -/
def ErrKind.code : ErrKind → BitVec 3
  | .none => 0#3
  | .truncatedHeader => 1#3
  | .truncatedRegionPrg => 2#3
  | .truncatedRegionChr => 3#3
  | .unreadableSource => 4#3

/-- The region a truncation error names (30_encoding.md R88). -/
def ErrKind.regionName : ErrKind → Option String
  | .none => Option.none
  | .truncatedHeader => Option.none
  | .truncatedRegionPrg => some "prg_rom"
  | .truncatedRegionChr => some "chr_rom"
  | .unreadableSource => Option.none

/-- Code numbers of `mirroring` (30_encoding.md R89). -/
def Mirroring.code : Mirroring → BitVec 2
  | .horizontal => 0#2
  | .vertical => 1#2
  | .unspecified => 2#2

/-- The ports the host can see at any time, and no others (10_state.md R34, R38). -/
structure StatusPorts where
  srcReq : Bool
  stage : BitVec 3
  done : Bool
  fail : Bool
  pc : BitVec 23
  deriving DecidableEq, Repr

/-- The levels on those ports: functions of `stage` and `pc` (R33, R34). -/
def State.statusPorts (s : State) : StatusPorts :=
  { srcReq := s.srcReq, stage := s.stage.code, done := s.done, fail := s.failed, pc := s.pc }

/-- The `err` port (R34): the host can see it at FAIL only (R38, 92_eei_decisions.md D15, 70_reset_and_hazards.md R196
row 5); a read of it at another time has no meaning and is refused (log 13). -/
def State.portErr (s : State) : Except Refusal (BitVec 3) :=
  if s.failed then .ok s.err.code else .error .hostReadUnspecified

/-- A port defined only when `done` = 1 (R34, R201); a read of it at another time, or of an unwritten value, is
refused. -/
def State.atDone {α : Type} (s : State) (v : Option α) : Except Refusal α :=
  if s.done then (match v with | some v => .ok v | none => .error .hostReadUnspecified)
  else .error .hostReadUnspecified

/-- `x0` to `x7` (R34, R38). -/
def State.portX0 (s : State) : Except Refusal (BitVec 32) := s.atDone s.x.formatTag

def State.portX1 (s : State) : Except Refusal (BitVec 22) := s.atDone s.x.prgRomSize

def State.portX2 (s : State) : Except Refusal (BitVec 8) := s.atDone s.x.chrRomSize

def State.portX3 (s : State) : Except Refusal (BitVec 8) := s.atDone s.x.prgRamSize

def State.portX4 (s : State) : Except Refusal (BitVec 2) := s.atDone (s.x.mirroring.map Mirroring.code)

def State.portX5 (s : State) : Except Refusal Bool := s.atDone s.x.hasPersistentStorage

def State.portX6 (s : State) : Except Refusal Bool := s.atDone s.x.hasTrainer

def State.portX7 (s : State) : Except Refusal (BitVec 8) := s.atDone s.x.mapperNumber

/-- `prg_present` and `chr_present` (R32, R34). -/
def State.portPrgPresent (s : State) : Except Refusal Bool := s.atDone (s.x.prgRomSize.map prgPresent)

def State.portChrPresent (s : State) : Except Refusal Bool := s.atDone (s.x.chrRomSize.map chrPresent)

/-- `prg_len` and `chr_len` as result lengths (R34). -/
def State.portPrgLen (s : State) : Except Refusal (BitVec 22) := s.atDone (some s.prgLen)

def State.portChrLen (s : State) : Except Refusal (BitVec 21) := s.atDone (some s.chrLen)

/-- `prg_rdata` for `prg_raddr` (20_memory.md R70): at DONE, of a present block, below its length. -/
def State.portPrgData (s : State) (raddr : BitVec 22) : Except Refusal Byte :=
  if s.x.prgRomSize.map prgPresent = some true ∧ raddr < s.prgLen then s.atDone (s.prg.read raddr.toNat)
  else .error .hostReadUnspecified

/-- `chr_rdata` for `chr_raddr` (20_memory.md R70). -/
def State.portChrData (s : State) (raddr : BitVec 21) : Except Refusal Byte :=
  if s.x.chrRomSize.map chrPresent = some true ∧ raddr < s.chrLen then s.atDone (s.chr.read raddr.toNat)
  else .error .hostReadUnspecified

end Sys2Proof.Machine
end

