-- ==== Sys2Proof/Machine/Stream.lean ====
section
/-! DEFINITION. A whole byte source (20_memory.md R55) as the moments of the input ports it drives, and the
whole-stream function the beats add up to (42_image_assembler.md R145, R146). The beats are the definition; the
function is what claims compare them with. -/

namespace Sys2Proof.Machine

/-- The canonical source of R55, with the one liberty of R146: it may become unreadable at an offset. -/
structure Source where
  readable : Bool
  bytes : List Byte
  failAt : Option Nat
  deriving DecidableEq, Repr

/-- The canonical source (`readable`, `bytes`) of R55. -/
def Source.canonical (readable : Bool) (bytes : List Byte) : Source := ⟨readable, bytes, none⟩

/-- The answer to the request at offset `p` (R55). -/
def Source.answer (src : Source) (p : Nat) : Answer :=
  if src.readable = false ∨ src.failAt = some p then .unreadable
  else match src.bytes[p]? with
    | some b => .byte b
    | none => .eos

/-- The answers from offset `p` on, one per request, to the first that is no byte. -/
def Source.answersFrom (src : Source) (p : Nat) : List Byte → List Answer
  | [] => [src.answer p]
  | _ :: rest =>
    match src.answer p with
    | .byte b => .byte b :: src.answersFrom (p + 1) rest
    | a => [a]

/-- The answers to the requests at offsets 0, 1, 2, ..., to the first that is no byte. -/
def Source.answers (src : Source) : List Answer := src.answersFrom 0 src.bytes

/-- An answer on the source ports (30_encoding.md R90). -/
def Answer.pins : Answer → Pins
  | .byte b => ⟨false, true, 0#2, b⟩
  | .eos => ⟨false, true, 1#2, 0#8⟩
  | .unreadable => ⟨false, true, 2#2, 0#8⟩

/-- `s` with these moments ahead of it. -/
def State.withMoments (s : State) (ps : List Pins) : State :=
  { s with pins := ps.headD Pins.idle, feed := ps.tail }

/-- `s` with a source connected that answers one request a moment. -/
def State.connect (s : State) (src : Source) : State := s.withMoments (src.answers.map Answer.pins)

/-- The end of a run: what is observed, the final `pc`, and how many beats it took. -/
structure RunEnd where
  obs : Obs
  pc : Nat
  beats : Nat
  deriving DecidableEq, Repr

/-- `ImageLen`: how many bytes of the stream one image takes (30_encoding.md R95). -/
def imageLen (byte4 byte5 : Byte) : Nat :=
  Config.headerBytes + byte4.toNat * Config.prgUnit + byte5.toNat * Config.chrUnit

/-- The first nine bytes of a stream. -/
def firstNine (bytes : List Byte) : Vector Byte 9 := Vector.ofFn fun k => bytes.getD k 0#8

/-- `Decode(readable, bytes)` of R145. -/
def decodeStream (readable : Bool) (bytes : List Byte) : RunEnd :=
  let len := bytes.length
  let h := decodeHeader (firstNine bytes)
  let p := h.prgRomSize.toNat
  let c := h.chrRomSize.toNat * Config.chrUnit
  let start := Config.headerBytes + Config.trainerSkipBytes
  if readable = false then ⟨.error .unreadableSource, 0, 1⟩
  else if len < Config.headerBytes then ⟨.error .truncatedHeader, len, len + 1⟩
  else if p > 0 ∧ len < start + p then ⟨.error .truncatedRegionPrg, len, len + 1⟩
  else if c > 0 ∧ len < start + p + c then ⟨.error .truncatedRegionChr, len, len + 1⟩
  else
    ⟨.ok
      { header := h
        prgRom := if p > 0 then some ((bytes.drop start).take p) else none
        chrRom := if c > 0 then some ((bytes.drop (start + p)).take c) else none },
      start + p + c, start + p + c⟩

/-- The end of a run over a source that may become unreadable at an offset: the run ends there if it asks for that
offset, and is as `decodeStream` says if it does not (R146; log 17). -/
def decodeSource (src : Source) : RunEnd :=
  let base := decodeStream src.readable src.bytes
  match src.failAt with
  | none => base
  | some u =>
    if src.readable ∧ u < base.beats then ⟨.error .unreadableSource, u, u + 1⟩ else base

end Sys2Proof.Machine
end

