-- ==== Sys2Proof/Safety.lean ====
section
/-! DEFINITION. What claims about runs speak of: the answers accepted so far, the state invariants of
42_image_assembler.md R149, well-behaved input moments, and a run to a terminal stage. -/

namespace Sys2Proof.Safety

open Sys2Proof Sys2Proof.Machine

/-- The bytes accepted since reset, after one more moment from `s`, when they were `bs` before it: none after a
reset, one more if the moment is a beat answered with a byte. -/
def accepted (bs : List Byte) (s : State) : List Byte :=
  if s.pins.rst then []
  else match s.fetchNext with
    | .byte b _ => bs ++ [b]
    | _ => bs

/-- Exactly the addresses below `n` are written, and the buffer is in canonical form (10_state.md R31). -/
def WrittenBelow (m : Memory) (n : Nat) : Prop := m.wf = true ∧ ∀ a, (m.read a).isSome = true ↔ a < n

/-- The state invariants (R149), for the bytes `bs` accepted since reset, together with what the same rules say of
the buffers, of `hbuf` and of the values of `x` (10_state.md R21, R29, R31; 40_header_decoder.md R111). -/
structure Inv (bs : List Byte) (s : State) : Prop where
  /-- `pc` counts the bytes accepted (R149). -/
  pc_eq : s.pc.toNat = bs.length
  /-- `pc` never exceeds `PC_MAX` (R148). -/
  pc_le : s.pc.toNat ≤ Config.pcMax
  /-- `stage` = FAIL exactly when an error is recorded (R149, R26). -/
  fail_iff : s.stage = .fail ↔ s.err ≠ .none
  /-- PRG is written exactly below `prg_len` (R31). -/
  prg_written : WrittenBelow s.prg s.prgLen.toNat
  /-- CHR is written exactly below `chr_len` (R31). -/
  chr_written : WrittenBelow s.chr s.chrLen.toNat
  /-- Stage HDR (R149, R29). -/
  hdr : s.stage = .hdr →
    s.pc.toNat ≤ 15 ∧ s.prgLen = 0#22 ∧ s.chrLen = 0#21 ∧ s.x = HeaderRegs.unwritten ∧
      ∀ k : Fin 9, s.hbuf.get k = bs[k.val]?
  /-- The stages after the header come after its sixteenth byte (R149, 42_image_assembler.md R141). -/
  past_header : s.stage = .prg ∨ s.stage = .chr ∨ s.stage = .done → 16 ≤ bs.length
  /-- Before the sixteenth byte no register is written, in FAIL either (R149, 10_state.md R22). -/
  unwritten : bs.length ≤ 15 → s.x = HeaderRegs.unwritten
  /-- From the sixteenth byte on, in FAIL as well, every register is written, with what the header says, and `pc` is
  the sum of the counters (R149, R111). -/
  written : 16 ≤ bs.length →
    s.x = (decodeHeader (firstNine bs)).regs ∧ s.pc.toNat = 16 + s.prgLen.toNat + s.chrLen.toNat
  /-- Stage PRG (R149). -/
  prg : s.stage = .prg → ∀ n, s.x.prgRomSize = some n → s.prgLen < n ∧ s.chrLen = 0#21
  /-- Stage CHR (R149). -/
  chr : s.stage = .chr → ∀ n u, s.x.prgRomSize = some n → s.x.chrRomSize = some u →
    s.prgLen = n ∧ s.chrLen < chrBytes u
  /-- Stage DONE (R149). -/
  done : s.stage = .done → ∀ n u, s.x.prgRomSize = some n → s.x.chrRomSize = some u →
    s.prgLen = n ∧ s.chrLen = chrBytes u
  /-- Stage FAIL: the failure came before the last needed byte (R148). -/
  fail_pc : s.stage = .fail → s.pc.toNat < Config.pcMax
  /-- `err` = TRUNCATED_HEADER (R149). -/
  short_header : s.err = .truncatedHeader → s.pc.toNat ≤ 15 ∧ s.x = HeaderRegs.unwritten
  /-- `err` = TRUNCATED_REGION_PRG (R149). -/
  short_prg : s.err = .truncatedRegionPrg →
    ∃ n, s.x.prgRomSize = some n ∧ s.prgLen < n ∧ s.pc.toNat = 16 + s.prgLen.toNat
  /-- `err` = TRUNCATED_REGION_CHR (R149). -/
  short_chr : s.err = .truncatedRegionChr →
    ∃ n u, s.x.prgRomSize = some n ∧ s.x.chrRomSize = some u ∧ 0#8 < u ∧ s.prgLen = n ∧ s.chrLen < chrBytes u ∧
      s.pc.toNat = 16 + s.prgLen.toNat + s.chrLen.toNat
  /-- The program-code bytes are the stream's (R149, 20_memory.md R52). -/
  prg_bytes : ∀ i, i < s.prgLen.toNat → s.prg.read i = bs[16 + i]?
  /-- The graphics bytes are the stream's (R149, 20_memory.md R53). -/
  chr_bytes : ∀ j, j < s.chrLen.toNat → ∀ n, s.x.prgRomSize = some n → s.chr.read j = bs[16 + n.toNat + j]?

/-- A moment in which the source gives an answer and no reset is asked for. -/
def answered (p : Pins) : Bool := !p.rst && p.srcAck && p.srcKind != 3#2

/-- A moment that follows the host protocol as far as INESDEC can see it (30_encoding.md R90: code 3 is never
presented). -/
def proper (p : Pins) : Bool := !p.srcAck || p.srcKind != 3#2

/-- A beat is due at `s` and its answer is `a`: a request is outstanding and the source answers it (10_state.md
R34). -/
def Answering (s : State) (a : Answer) : Prop := s.srcReq = true ∧ s.pins.presented = .answer a

/-- No reset is asked for, now or later. -/
def NoReset (s : State) : Prop := ∀ p ∈ s.pins :: s.feed, p.rst = false

/-- Operations one after another. -/
def execList : List Instr → State → Result
  | [], s => .next s
  | i :: is, s => onNext (exec i s) fun t => execList is t

/-- The order the stages are met in (10_state.md R25). -/
def rank : Stage → Nat
  | .hdr => 0
  | .prg => 1
  | .chr => 2
  | .done => 3
  | .fail => 3

/-- `n` steps from `s` end in the state `t`. -/
def runsTo (n : Nat) (s t : State) : Prop := core.run n s = .next t

/-- The part of the state the spec gives the machine: everything but the inputs still to come and the epoch. -/
def sameMachine (s t : State) : Prop :=
  t.stage = s.stage ∧ t.pc = s.pc ∧ t.err = s.err ∧ t.hbuf = s.hbuf ∧ t.x = s.x ∧ t.prgLen = s.prgLen ∧
    t.chrLen = s.chrLen ∧ t.prg = s.prg ∧ t.chr = s.chr

/-- The state of 10_state.md R36, piece by piece. -/
def AtReset (s : State) : Prop :=
  s.stage = .hdr ∧ s.pc = 0#23 ∧ s.err = .none ∧ s.prgLen = 0#22 ∧ s.chrLen = 0#21 ∧
    (∀ k : Fin 9, s.hbuf.get k = none) ∧ s.x = HeaderRegs.unwritten ∧
    (∀ a, s.prg.read a = none) ∧ (∀ a, s.chr.read a = none)

end Sys2Proof.Safety
end

