-- ==== Sys2Proof/Certificates/Slice0/Obligations.lean ====
section
/-! DEFINITION. The statements for the provers. Each docstring names the rules of spec/ a statement formalises. -/

open Sys2Proof Sys2Proof.Machine Sys2Proof.Safety

/-! ### Reset -/

/-- 10_state.md R36: the value of every piece of state after reset, the derived signals among them. -/
def Obligations.ResetStateHoldsTheTableValues : Prop :=
  AtReset State.reset ∧ State.reset.done = false ∧ State.reset.failed = false ∧ State.reset.srcReq = true ∧
    State.reset.x.prgRomSize.map prgPresent = none ∧ State.reset.x.chrRomSize.map chrPresent = none

/-- Derived from 70_reset_and_hazards.md R190 (log 1, log 16): RESET gives the reset state whatever the stage, wins
over a beat of the same moment, ignores an answer presented then, and leaves the request for offset 0 outstanding. The
clauses about `pins` and `feed` are the model's choice, not R190's words: the inputs to come are the model's own (log
1), RESET leaves them, and a step takes the next of them (log 16). Completion of RESET. -/
def Obligations.ResetRestoresTheResetState : Prop :=
  ∀ s : State,
    (∃ t, exec .reset s = .next t ∧ AtReset t ∧ t.obs = some .busy ∧ t.srcReq = true ∧
      t.pins = s.pins ∧ t.feed = s.feed) ∧
    (s.pins.rst = true → ∃ t, step s = .next t ∧ AtReset t ∧ t.obs = some .busy ∧ t.srcReq = true ∧
      t.pins = s.feed.headD Pins.idle ∧ t.feed = s.feed.tail)

/-- 70_reset_and_hazards.md R192: nothing of the run before a reset is an input to the new run. Two machines in any
two states that see the same inputs, beginning with a reset, are in the same state of the machine at every later
moment. -/
def Obligations.NothingSurvivesReset : Prop :=
  ∀ s₁ s₂ : State, s₁.pins.rst = true → s₂.pins = s₁.pins → s₂.feed = s₁.feed →
    ∀ n t₁, runsTo (n + 1) s₁ t₁ → ∃ t₂, runsTo (n + 1) s₂ t₂ ∧ sameMachine t₁ t₂

/-! ### The step -/

/-- Derived from 30_encoding.md R98 and 42_image_assembler.md R156 (log 2): when `rst` or the stage register decodes
to an operation, that operation is well-formed and the step is its exec, after which the input ports take their next
levels. -/
def Obligations.StepRunsTheDecodedOperation : Prop :=
  ∀ (s : State) (i : Instr), decode s.fetchCode = .ok i →
    i.wellFormed = true ∧ step s = onNext (exec i s) (fun t => .next t.tick)

/-- 30_encoding.md R87: the stage codes, and the operation each of them selects or why it selects none. -/
def Obligations.StageCodesSelectTheirOperations : Prop :=
  decode (.stage3 0b000#3) = .ok .hdec ∧ decode (.stage3 0b001#3) = .ok .rdprg ∧
    decode (.stage3 0b010#3) = .ok .rdchr ∧ decode (.stage3 0b011#3) = .error .terminalStage ∧
    decode (.stage3 0b100#3) = .error .terminalStage ∧ decode (.stage3 0b101#3) = .error .notAStage ∧
    decode (.stage3 0b110#3) = .error .notAStage ∧ decode (.stage3 0b111#3) = .error .notAStage ∧
    Stage.code .hdr = 0b000#3 ∧ Stage.code .prg = 0b001#3 ∧ Stage.code .chr = 0b010#3 ∧
    Stage.code .done = 0b011#3 ∧ Stage.code .fail = 0b100#3

/-- 42_image_assembler.md R152: terminal stages take no step. An answer presented then is ignored, by the step and
by each stage operation alike. -/
def Obligations.TerminalStagesTakeNoStep : Prop :=
  ∀ s : State, s.stage = .done ∨ s.stage = .fail →
    s.srcReq = false ∧ (s.pins.rst = false → step s = .next s.tick) ∧ sameMachine s s.tick ∧
      exec .hdec s = .next s ∧ exec .hdrPad s = .next s ∧ exec .rdprg s = .next s ∧ exec .rdchr s = .next s

/-- 60_exceptions.md R171, 42_image_assembler.md R152: only `rst` leaves a terminal stage; until then every number
of steps leaves the machine as it is. -/
def Obligations.OnlyResetLeavesATerminalStage : Prop :=
  ∀ s : State, s.stage = .done ∨ s.stage = .fail →
    (NoReset s → ∀ n, ∃ t, runsTo n s t ∧ sameMachine s t) ∧
    (s.pins.rst = true → ∃ t, step s = .next t ∧ AtReset t)

/-- Derived from 00_scope.md R10 and 60_exceptions.md R179 (log 2): a moment with no answer and no reset changes
nothing. -/
def Obligations.NoAnswerHoldsTheState : Prop :=
  ∀ s : State, s.pins.rst = false → s.pins.srcAck = false → step s = .next s.tick ∧ sameMachine s s.tick

/-- 42_image_assembler.md R141: every stage transition, with `err`, and no other. `x` is read as the hardware reads
it; in the row `pc` = 15 it is what that very beat writes. -/
def Obligations.EveryStageTransition : Prop :=
  ∀ s t : State, step s = .next t →
    (s.pins.rst = true → t.stage = .hdr) ∧
    (s.pins.rst = false →
      (∀ b, Answering s (.byte b) → t.err = s.err ∧
        (s.stage = .hdr → s.pc.toNat ≤ 14 → t.stage = .hdr) ∧
        (s.stage = .hdr → s.pc.toNat = 15 →
          (0 < t.prgRomSize.toNat → t.stage = .prg) ∧
          (t.prgRomSize.toNat = 0 → 0 < t.chrRomSize.toNat → t.stage = .chr) ∧
          (t.prgRomSize.toNat = 0 → t.chrRomSize.toNat = 0 → t.stage = .done)) ∧
        (s.stage = .prg → s.prgLen.toNat + 1 < s.prgRomSize.toNat → t.stage = .prg) ∧
        (s.stage = .prg → s.prgLen.toNat + 1 = s.prgRomSize.toNat → 0 < s.chrRomSize.toNat → t.stage = .chr) ∧
        (s.stage = .prg → s.prgLen.toNat + 1 = s.prgRomSize.toNat → s.chrRomSize.toNat = 0 → t.stage = .done) ∧
        (s.stage = .chr → s.chrLen.toNat + 1 < s.chrRomSize.toNat * 0x2000 → t.stage = .chr) ∧
        (s.stage = .chr → s.chrLen.toNat + 1 = s.chrRomSize.toNat * 0x2000 → t.stage = .done)) ∧
      (Answering s .eos → t.stage = .fail ∧
        (s.stage = .hdr → t.err = .truncatedHeader) ∧
        (s.stage = .prg → t.err = .truncatedRegionPrg) ∧
        (s.stage = .chr → t.err = .truncatedRegionChr)) ∧
      (Answering s .unreadable → t.stage = .fail ∧ t.err = .unreadableSource) ∧
      ((∀ a, ¬ Answering s a) → t.stage = s.stage ∧ t.err = s.err) ∧
      (s.stage = .done ∨ s.stage = .fail → t.stage = s.stage))

/-- Derived from 10_state.md R25 and 42_image_assembler.md R153: without a reset the stages are met in order, never
backwards, and DONE and FAIL never follow each other. -/
def Obligations.StagesAreMetInOrder : Prop :=
  ∀ s t : State, s.pins.rst = false → step s = .next t →
    rank s.stage ≤ rank t.stage ∧ (rank s.stage = rank t.stage → t.stage = s.stage)

/-- Derived from 10_state.md R24 and 20_memory.md R56: without a reset a beat answered with a byte adds exactly 1 to
`pc`, and nothing else changes it. -/
def Obligations.OnlyAnAcceptedByteMovesTheCursor : Prop :=
  ∀ s t : State, s.pins.rst = false → step s = .next t →
    (∀ b, Answering s (.byte b) → t.pc.toNat = s.pc.toNat + 1) ∧
    ((∀ b, ¬ Answering s (.byte b)) → t.pc = s.pc)

/-! ### The Header Decoder -/

/-- Derived from 40_header_decoder.md R110 and 10_state.md R29: the HDEC beat at `pc` = k for k up to 14 keeps byte k
in `hbuf[k]` if k is at most 8, keeps it nowhere otherwise, and changes nothing else but `pc`. Completion of HDEC. -/
def Obligations.HdecKeepsOrDiscardsTheByte : Prop :=
  ∀ (s : State) (b : Byte), s.stage = .hdr → Answering s (.byte b) → s.pc.toNat ≤ 14 →
    ∃ t, exec .hdec s = .next t ∧ t.pc.toNat = s.pc.toNat + 1 ∧
      (∀ k : Fin 9, t.hbuf.get k = if k.val = s.pc.toNat then some b else s.hbuf.get k) ∧
      t = { s with pc := t.pc, hbuf := t.hbuf }

/-- Derived from 40_header_decoder.md R110 and R111: the HDEC beat at `pc` = 15 writes all eight result registers
at once and moves to the stage the header asks for, whatever the sixteenth byte is; nothing else changes but `pc`.
Completion of HDEC. -/
def Obligations.HdecLatchesTheRecordAtTheSixteenthByte : Prop :=
  ∀ (s : State) (b : Byte), s.stage = .hdr → Answering s (.byte b) → s.pc = 15#23 →
    exec .hdec s = .next
      { s with
        pc := 16#23
        x := (decodeHeader s.headerBytes).regs
        stage := afterHeader (decodeHeader s.headerBytes).prgRomSize (decodeHeader s.headerBytes).chrRomSize }

/-- 42_image_assembler.md R142 and R143: the stage that follows the header and the program-code region. -/
def Obligations.NextStageFollowsTheSizes : Prop :=
  (∀ (p : BitVec 22) (c : BitVec 8), 0 < p.toNat → afterHeader p c = .prg) ∧
    (∀ c : BitVec 8, 0 < c.toNat → afterHeader 0#22 c = .chr ∧ afterPrg c = .chr) ∧
    afterHeader 0#22 0#8 = .done ∧ afterPrg 0#8 = .done

/-- Frame of HDEC (derived from 10_state.md R22, R26 to R29 and 40_header_decoder.md R110). -/
def Obligations.HdecFrame : Prop :=
  ∀ s t : State, exec .hdec s = .next t →
    (t.x ≠ s.x → s.pc = 15#23 ∧ ∃ b, Answering s (.byte b)) ∧
    (∀ k : Fin 9, t.hbuf.get k ≠ s.hbuf.get k → s.pc.toNat = k.val ∧ ∃ b, Answering s (.byte b)) ∧
    (t.err ≠ s.err → t.stage = .fail) ∧
    t.prgLen = s.prgLen ∧ t.chrLen = s.chrLen ∧ (∀ a, t.prg.read a = s.prg.read a) ∧
    (∀ a, t.chr.read a = s.chr.read a) ∧ t.epoch = s.epoch ∧ t.pins = s.pins ∧ t.feed = s.feed

/-- 40_header_decoder.md R112: `x[format_tag]` is the raw copy of header bytes 0 to 3, byte k in bits 8k+7:8k, and
nothing else changes. Completion of HDR.TAG. -/
def Obligations.TagIsCopiedRaw : Prop :=
  ∀ (t0 t1 t2 t3 : Byte) (s : State), ∃ tag : BitVec 32,
    exec (.hdrTag t0 t1 t2 t3) s = .next { s with x := { s.x with formatTag := some tag } } ∧
      tag.toNat = t0.toNat + 2 ^ 8 * t1.toNat + 2 ^ 16 * t2.toNat + 2 ^ 24 * t3.toNat ∧
      tagByte tag 0 = t0 ∧ tagByte tag 1 = t1 ∧ tagByte tag 2 = t2 ∧ tagByte tag 3 = t3

/-- 40_header_decoder.md R113, 30_encoding.md R83: `x[prg_rom_size]` is the unsigned byte times 0x4000; bits 13:0
are 0 and bits 21:14 are the byte; `prg_present` says whether the byte is non-zero. Completion of HDR.PRGSZ. -/
def Obligations.PrgSizeIsTheByteTimes4000 : Prop :=
  ∀ (u : Byte) (s : State), ∃ size : BitVec 22,
    exec (.hdrPrgsz u) s = .next { s with x := { s.x with prgRomSize := some size } } ∧
      size.toNat = u.toNat * 0x4000 ∧ size.extractLsb' 0 14 = 0#14 ∧ size.extractLsb' 14 8 = u ∧
      prgPresent size = (u != 0#8)

/-- 40_header_decoder.md R114, 30_encoding.md R84: `x[chr_rom_size]` is the unit count, not multiplied; the region's
byte length is that count times 0x2000; `chr_present` says whether it is non-zero. Completion of HDR.CHRSZ. -/
def Obligations.ChrSizeIsTheUnitCount : Prop :=
  ∀ (u : Byte) (s : State),
    exec (.hdrChrsz u) s = .next { s with x := { s.x with chrRomSize := some u } } ∧
      (chrBytes u).toNat = u.toNat * 0x2000 ∧ chrPresent u = (u != 0#8)

/-- 40_header_decoder.md R115, for both values of `IGNMIRR_TEST`: bit 3 of flag byte A gives Unspecified under
INTENDED, whatever bit 0 is; otherwise bit 0 chooses between Vertical and Horizontal; REFERENCE never gives
Unspecified. INESDEC is built with INTENDED. Completion of HDR.MIRR. -/
def Obligations.MirroringFollowsBits0And3 : Prop :=
  ∀ (a : Byte) (s : State),
    exec (.hdrMirr a) s = .next { s with x := { s.x with mirroring := some (mirrValue .intended a) } } ∧
      (a.getLsbD 3 = true → mirrValue .intended a = .unspecified) ∧
      (a.getLsbD 3 = false → mirrValue .intended a = if a.getLsbD 0 then .vertical else .horizontal) ∧
      mirrValue .reference a = (if a.getLsbD 0 then .vertical else .horizontal) ∧
      Config.ignmirrTest = .intended

/-- 40_header_decoder.md R116: `x[has_persistent_storage]` is bit 1 of flag byte A. Completion of HDR.PERS. -/
def Obligations.PersistentStorageIsBit1 : Prop :=
  ∀ (a : Byte) (s : State),
    exec (.hdrPers a) s = .next { s with x := { s.x with hasPersistentStorage := some (a.getLsbD 1) } }

/-- 40_header_decoder.md R117, for both values of `TRAINER_TEST`: `x[has_trainer]` is bit 2 of flag byte A under
INTENDED and false for every A under REFERENCE; the bit changes nothing else of the record, and whatever the record's
trainer flag the first region byte asked for is the one at offset 16. INESDEC is built with INTENDED. Completion of
HDR.TRNR. -/
def Obligations.TrainerIsBit2 : Prop :=
  ∀ (a : Byte) (s : State),
    exec (.hdrTrnr a) s = .next { s with x := { s.x with hasTrainer := some (a.getLsbD 2) } } ∧
      trnrValue .intended a = a.getLsbD 2 ∧ trnrValue .reference a = false ∧ Config.trainerTest = .intended ∧
      (∀ h : Vector Byte 9, decodeHeader (h.set 6 (h[6] ^^^ 0x04#8)) =
        { decodeHeader h with hasTrainer := !(decodeHeader h).hasTrainer }) ∧
      (∀ b, s.stage = .hdr → s.pc = 15#23 → Answering s (.byte b) → ∃ t, exec .hdec s = .next t ∧ t.pc = 16#23)

/-- 40_header_decoder.md R118, 30_encoding.md R85: `x[mapper_number]` has the high nibble of A as its low nibble and
the high nibble of B as its high nibble, whatever the low nibbles are; the addition never carries. Completion of
HDR.MAPPER. -/
def Obligations.MapperJoinsTheHighNibbles : Prop :=
  ∀ (a b : Byte) (s : State), ∃ m : BitVec 8,
    exec (.hdrMapper a b) s = .next { s with x := { s.x with mapperNumber := some m } } ∧
      m.toNat = (b &&& 0xF0#8).toNat + a.toNat / 16 ∧ m = (b &&& 0xF0#8) ||| (a >>> 4) ∧
      m.extractLsb' 0 4 = a.extractLsb' 4 4 ∧ m.extractLsb' 4 4 = b.extractLsb' 4 4

/-- 40_header_decoder.md R119: `x[prg_ram_size]` is the byte, raw; nothing else of the record comes from header byte
8, and neither following stage nor region length does. Completion of HDR.PRGRAM. -/
def Obligations.PrgRamSizeIsTheRawByte : Prop :=
  ∀ (u : Byte) (s : State),
    exec (.hdrPrgram u) s = .next { s with x := { s.x with prgRamSize := some u } } ∧
      (∀ h : Vector Byte 9, decodeHeader (h.set 8 u) = { decodeHeader h with prgRamSize := u }) ∧
      (∀ (rd : Bool) (bytes : List Byte), (decodeStream rd (bytes.set 8 u)).pc = (decodeStream rd bytes).pc ∧
        (decodeStream rd (bytes.set 8 u)).beats = (decodeStream rd bytes).beats)

/-- Derived from 40_header_decoder.md R120 (log 9): a padding byte is consumed and written nowhere, a source that ends
or cannot be read there raises the header's errors, and the HDEC beats for k in 9..14 are exactly that. Completion of
HDR.PAD. -/
def Obligations.PaddingIsConsumedAndDiscarded : Prop :=
  (∀ (s : State) (b : Byte), Answering s (.byte b) → s.pc ≠ BitVec.allOnes 23 →
    ∃ t, exec .hdrPad s = .next t ∧ t.pc.toNat = s.pc.toNat + 1 ∧ t = { s with pc := t.pc }) ∧
  (∀ s : State, Answering s .eos → exec .hdrPad s = .next { s with err := .truncatedHeader, stage := .fail }) ∧
  (∀ s : State, Answering s .unreadable →
    exec .hdrPad s = .next { s with err := .unreadableSource, stage := .fail }) ∧
  (∀ s : State, 9 ≤ s.pc.toNat → s.pc.toNat ≤ 14 → exec .hdec s = exec .hdrPad s)

/-- Derived from 40_header_decoder.md R111 and 30_encoding.md R98 (log 8): the eight field decoders of one header,
run in any order, write exactly the record `DecodeHeader` gives, from whatever state. -/
def Obligations.FieldDecodersInAnyOrderGiveTheRecord : Prop :=
  ∀ (h : BitVec 128) (s : State) (is : List Instr),
    is.Perm [decodeTag h, decodePrgsz h, decodeChrsz h, decodeMirr h, decodePers h, decodeTrnr h, decodeMapper h,
      decodePrgram h] →
    execList is s = .next { s with x := (decodeHeader (Vector.ofFn fun k : Fin 9 => headerByte h k)).regs }

/-- Frame of the eight field decoders (derived from 40_header_decoder.md R112 to R119; log 8): a next state differs
in the one register of the operation only. -/
def Obligations.FieldDecoderFrame : Prop :=
  ∀ s t : State,
    (∀ t0 t1 t2 t3, exec (.hdrTag t0 t1 t2 t3) s = .next t →
      t = { s with x := { s.x with formatTag := t.x.formatTag } }) ∧
    (∀ u, exec (.hdrPrgsz u) s = .next t → t = { s with x := { s.x with prgRomSize := t.x.prgRomSize } }) ∧
    (∀ u, exec (.hdrChrsz u) s = .next t → t = { s with x := { s.x with chrRomSize := t.x.chrRomSize } }) ∧
    (∀ a, exec (.hdrMirr a) s = .next t → t = { s with x := { s.x with mirroring := t.x.mirroring } }) ∧
    (∀ a, exec (.hdrPers a) s = .next t →
      t = { s with x := { s.x with hasPersistentStorage := t.x.hasPersistentStorage } }) ∧
    (∀ a, exec (.hdrTrnr a) s = .next t → t = { s with x := { s.x with hasTrainer := t.x.hasTrainer } }) ∧
    (∀ a b, exec (.hdrMapper a b) s = .next t → t = { s with x := { s.x with mapperNumber := t.x.mapperNumber } }) ∧
    (∀ u, exec (.hdrPrgram u) s = .next t → t = { s with x := { s.x with prgRamSize := t.x.prgRamSize } })

/-- 30_encoding.md R91: no header value is illegal. Every header is matched by all nine field decoders, in the
table's order, with well-formed operands; each of the eight that write a register completes and leaves `err` and
`stage` alone, and an HDEC beat with a byte at any `pc` up to 15 raises no error whatever the byte and whatever was
kept. -/
def Obligations.NoHeaderIsIllegal : Prop :=
  (∀ h : BitVec 128,
    decodeAll (.hdr16 h) = [decodeTag h, decodePrgsz h, decodeChrsz h, decodeMirr h, decodePers h, decodeTrnr h,
      decodeMapper h, decodePrgram h, .hdrPad] ∧
    ∀ i ∈ decodeAll (.hdr16 h), i.wellFormed = true ∧
      ∀ s : State, i ≠ .hdrPad → ∃ t, exec i s = .next t ∧ t.err = s.err ∧ t.stage = s.stage) ∧
  (∀ (s : State) (b : Byte), s.stage = .hdr → Answering s (.byte b) → s.pc.toNat ≤ 15 →
    ∃ t, exec .hdec s = .next t ∧ t.err = s.err ∧ t.stage ≠ .fail)

/-- 30_encoding.md R92: the bits no rule reads give the same result whatever they hold: flag byte B bits 3:0, the
bytes 9 to 15, and under REFERENCE bit 3 of A for mirroring and bit 2 of A for has_trainer. -/
def Obligations.IgnoredBitsChangeNothing : Prop :=
  (∀ (f g : FlagTest) (h : Vector Byte 9) (b : Byte), b >>> 4 = h[7] >>> 4 →
    decodeHeaderWith f g (h.set 7 b) = decodeHeaderWith f g h) ∧
  (∀ a : Byte, mirrValue .reference (a ^^^ 0x08#8) = mirrValue .reference a ∧
    trnrValue .reference (a ^^^ 0x04#8) = trnrValue .reference a) ∧
  (∀ (s : State) (b c : Byte), s.stage = .hdr → 9 ≤ s.pc.toNat → s.pc.toNat ≤ 15 →
    Answering s (.byte b) → ∃ t, exec .hdec s = .next t ∧
      exec .hdec { s with pins := { s.pins with srcData := c } } = .next { t with pins := { s.pins with srcData := c } } ∧
      t.hbuf = s.hbuf)

/-- 30_encoding.md R93: the tag is copied and not validated; other bytes in its place change no other field, and the
whole stream decodes the same way, to the same end with the same regions. -/
def Obligations.TagIsNotValidated : Prop :=
  (∀ (h g : Vector Byte 9), (∀ k : Fin 9, 4 ≤ k.val → g.get k = h.get k) →
    decodeHeader g = { decodeHeader h with formatTag := tagValue g[0] g[1] g[2] g[3] }) ∧
  (∀ (rd : Bool) (l m : List Byte), m.length = l.length → m.drop 4 = l.drop 4 →
    (decodeStream rd m).pc = (decodeStream rd l).pc ∧ (decodeStream rd m).beats = (decodeStream rd l).beats ∧
      (decodeStream rd m).obs =
        match (decodeStream rd l).obs with
        | .ok img => .ok { img with header := { img.header with formatTag := (decodeHeader (firstNine m)).formatTag } }
        | .error e => .error e
        | .busy => .busy)

/-- Derived from 10_state.md R22: the eight result registers are written together, by the HDEC beat at `pc` = 15 and
by nothing else but a reset. -/
def Obligations.OnlyTheSixteenthByteWritesTheRegisters : Prop :=
  ∀ s t : State, s.pins.rst = false → step s = .next t → t.x ≠ s.x →
    s.stage = .hdr ∧ s.pc = 15#23 ∧ (∃ b, Answering s (.byte b)) ∧ t.x = (decodeHeader s.headerBytes).regs

/-! ### The Region Reader -/

/-- Derived from 41_region_reader.md R130: a byte answered in stage PRG goes to `PRG[prg_len]`, both counters move
by 1, the stage after the last byte is the one the graphics size asks for, and nothing else changes. Completion of
RDPRG. -/
def Obligations.RdprgCopiesOneByte : Prop :=
  ∀ (s : State) (b : Byte), s.stage = .prg → Answering s (.byte b) → s.pc ≠ BitVec.allOnes 23 →
    s.prgLen.toNat < Config.prgBufBytes →
    ∃ t, exec .rdprg s = .next t ∧ t.pc.toNat = s.pc.toNat + 1 ∧ t.prgLen.toNat = s.prgLen.toNat + 1 ∧
      (∀ a, t.prg.read a = if a = s.prgLen.toNat then some b else s.prg.read a) ∧
      t.stage = (if s.prgLen.toNat + 1 = s.prgRomSize.toNat then
        (if 0 < s.chrRomSize.toNat then .chr else .done) else .prg) ∧
      t = { s with pc := t.pc, prgLen := t.prgLen, prg := t.prg, stage := t.stage }

/-- Derived from 41_region_reader.md R132: a byte answered in stage CHR goes to `CHR[chr_len]`, both counters move
by 1, DONE follows the last byte, and nothing else changes. Completion of RDCHR. -/
def Obligations.RdchrCopiesOneByte : Prop :=
  ∀ (s : State) (b : Byte), s.stage = .chr → Answering s (.byte b) → s.pc ≠ BitVec.allOnes 23 →
    s.chrLen.toNat < Config.chrBufBytes →
    ∃ t, exec .rdchr s = .next t ∧ t.pc.toNat = s.pc.toNat + 1 ∧ t.chrLen.toNat = s.chrLen.toNat + 1 ∧
      (∀ a, t.chr.read a = if a = s.chrLen.toNat then some b else s.chr.read a) ∧
      t.stage = (if s.chrLen.toNat + 1 = s.chrRomSize.toNat * 0x2000 then .done else .chr) ∧
      t = { s with pc := t.pc, chrLen := t.chrLen, chr := t.chr, stage := t.stage }

/-- Frame of RDPRG and RDCHR (derived from 41_region_reader.md R130, R132, R135): each writes the one buffer cell
at its own length counter, when a byte is answered, and no other byte of either buffer; `x`, `hbuf` and the other
region's counter stay. -/
def Obligations.RegionFrame : Prop :=
  ∀ s t : State,
    (exec .rdprg s = .next t →
      (∀ a, t.prg.read a ≠ s.prg.read a → a = s.prgLen.toNat ∧ ∃ b, Answering s (.byte b)) ∧
      (∀ a, t.chr.read a = s.chr.read a) ∧ t.chrLen = s.chrLen ∧ t.x = s.x ∧ t.hbuf = s.hbuf ∧
      (t.err ≠ s.err → t.stage = .fail) ∧ t.epoch = s.epoch ∧ t.pins = s.pins ∧ t.feed = s.feed) ∧
    (exec .rdchr s = .next t →
      (∀ a, t.chr.read a ≠ s.chr.read a → a = s.chrLen.toNat ∧ ∃ b, Answering s (.byte b)) ∧
      (∀ a, t.prg.read a = s.prg.read a) ∧ t.prgLen = s.prgLen ∧ t.x = s.x ∧ t.hbuf = s.hbuf ∧
      (t.err ≠ s.err → t.stage = .fail) ∧ t.epoch = s.epoch ∧ t.pins = s.pins ∧ t.feed = s.feed)

/-- 41_region_reader.md R134: the value of a region byte decides nothing. Two machines in a region stage that agree
but for buffer contents and the data byte on the port go through the same stage, `pc`, lengths and error, and each
stores its own byte only. -/
def Obligations.RegionBytesDecideNothing : Prop :=
  ∀ (s : State) (d : Byte) (m n : Memory), s.stage = .prg ∨ s.stage = .chr → s.pins.rst = false →
    ∀ t, step s = .next t →
      ∃ t', step { s with pins := { s.pins with srcData := d }, prg := m, chr := n } = .next t' ∧
        t' = { t with prg := t'.prg, chr := t'.chr } ∧
        (∀ a, t'.prg.read a ≠ m.read a → s.stage = .prg ∧ a = s.prgLen.toNat ∧ t'.prg.read a = some d) ∧
        (∀ a, t'.chr.read a ≠ n.read a → s.stage = .chr ∧ a = s.chrLen.toNat ∧ t'.chr.read a = some d)

/-! ### Errors -/

/-- 60_exceptions.md R166 and R167: taking an error writes `err` and `stage` and nothing else, with the code of the
error the stage operation meets; `pc` stays at the offset the source failed to supply. -/
def Obligations.RaiseWritesErrAndStageOnly : Prop :=
  ∀ s : State,
    (Answering s .eos →
      (s.stage = .hdr → exec .hdec s = .next { s with err := .truncatedHeader, stage := .fail }) ∧
      (s.stage = .prg → exec .rdprg s = .next { s with err := .truncatedRegionPrg, stage := .fail }) ∧
      (s.stage = .chr → exec .rdchr s = .next { s with err := .truncatedRegionChr, stage := .fail })) ∧
    (Answering s .unreadable →
      (s.stage = .hdr → exec .hdec s = .next { s with err := .unreadableSource, stage := .fail }) ∧
      (s.stage = .prg → exec .rdprg s = .next { s with err := .unreadableSource, stage := .fail }) ∧
      (s.stage = .chr → exec .rdchr s = .next { s with err := .unreadableSource, stage := .fail }))

/-- 60_exceptions.md R161 to R165: which error a failing answer raises in a run, and that `pc` is left at the number
of bytes consumed. A short header leaves every register unwritten. -/
def Obligations.FailingAnswersRaiseTheStagesError : Prop :=
  ∀ (bs : List Byte) (s : State), Inv bs s → s.pins.rst = false →
    (Answering s .eos → ∃ t, step s = .next t ∧ t.stage = .fail ∧ t.obs = some (.error t.err) ∧
      t.pc.toNat = bs.length ∧
      (s.stage = .hdr → t.err = .truncatedHeader ∧ bs.length ≤ 15 ∧ t.x = HeaderRegs.unwritten) ∧
      (s.stage = .prg → t.err = .truncatedRegionPrg ∧ 16 ≤ bs.length ∧ 0 < s.prgRomSize.toNat ∧
        bs.length < 16 + s.prgRomSize.toNat) ∧
      (s.stage = .chr → t.err = .truncatedRegionChr ∧ 0 < s.chrRomSize.toNat ∧
        16 + s.prgRomSize.toNat ≤ bs.length ∧
        bs.length < 16 + s.prgRomSize.toNat + s.chrRomSize.toNat * 0x2000)) ∧
    (Answering s .unreadable → ∃ t, step s = .next t ∧ t.obs = some (.error .unreadableSource) ∧
      t.pc.toNat = bs.length)

/-- Derived from 10_state.md R24 and R31 and 30_encoding.md R90 (log 5, log 6, log 7; HDR.PAD as a beat of its own,
log 9; an operation outside its stage, log 15): the only places where a beat of HDEC, HDR.PAD, RDPRG or RDCHR stops,
each by name: a cursor that cannot count one more byte, a buffer address that does not exist, an answer code that is
no answer. Where none of them holds, the operation answers a next state, with a beat or without one. -/
def Obligations.WhereABeatStops : Prop :=
  ∀ s : State,
    (s.srcReq = true →
      (∀ b, s.pins.presented = .answer (.byte b) → s.pc = BitVec.allOnes 23 →
        exec .hdec s = .fault .cursorFull ∧ exec .hdrPad s = .fault .cursorFull ∧
        exec .rdprg s = .fault .cursorFull ∧ exec .rdchr s = .fault .cursorFull) ∧
      (∀ b, s.pins.presented = .answer (.byte b) → s.pc ≠ BitVec.allOnes 23 →
        (Config.prgBufBytes ≤ s.prgLen.toNat → exec .rdprg s = .fault .prgAddress) ∧
        (Config.chrBufBytes ≤ s.chrLen.toNat → exec .rdchr s = .fault .chrAddress)) ∧
      (s.pins.srcAck = true → s.pins.srcKind = 3#2 →
        exec .hdec s = .refused .notAnAnswer ∧ exec .hdrPad s = .refused .notAnAnswer ∧
        exec .rdprg s = .refused .notAnAnswer ∧ exec .rdchr s = .refused .notAnAnswer)) ∧
    ((∀ b, Answering s (.byte b) → s.pc ≠ BitVec.allOnes 23) →
      ¬ (s.srcReq = true ∧ s.pins.srcAck = true ∧ s.pins.srcKind = 3#2) →
      (∃ t, exec .hdec s = .next t) ∧ (∃ t, exec .hdrPad s = .next t) ∧
      ((∀ b, Answering s (.byte b) → s.prgLen.toNat < Config.prgBufBytes) → ∃ t, exec .rdprg s = .next t) ∧
      ((∀ b, Answering s (.byte b) → s.chrLen.toNat < Config.chrBufBytes) → ∃ t, exec .rdchr s = .next t))

/-! ### The whole machine -/

/-- Derived from 42_image_assembler.md R149 and 10_state.md R36: the invariants hold after reset: of the reset state
itself, and of every state RESET gives. -/
def Obligations.ResetMeetsTheInvariants : Prop :=
  Inv [] State.reset ∧ ∀ s t : State, exec .reset s = .next t → Inv [] t

/-- 42_image_assembler.md R149: the state invariants are true after reset and every step keeps them, `accepted` being
the bytes accepted since reset. -/
def Obligations.EveryStepKeepsTheInvariants : Prop :=
  Inv [] State.reset ∧
    ∀ (bs : List Byte) (s t : State), Inv bs s → step s = .next t → Inv (accepted bs s) t

/-- Derived from 20_memory.md R71 and R72: where the invariants hold no buffer write leaves its buffer and no address
arithmetic wraps, so no step faults; a source that keeps to the answer codes is never refused either. -/
def Obligations.NoStepFaultsUnderTheInvariants : Prop :=
  ∀ (bs : List Byte) (s : State), Inv bs s → proper s.pins = true →
    (∃ t, step s = .next t) ∧ s.pc.toNat + 1 < 2 ^ 23 ∧
      (s.stage = .prg → s.prgLen < s.prgRomSize ∧ s.prgRomSize.toNat ≤ Config.prgBufBytes) ∧
      (s.stage = .chr → s.chrLen.toNat < s.chrRomSize.toNat * 0x2000 ∧
        s.chrRomSize.toNat * 0x2000 ≤ Config.chrBufBytes)

/-- 42_image_assembler.md R148: at DONE exactly the image's bytes have been consumed, at least 16 and at most
`PC_MAX`; at FAIL at most `PC_MAX` - 1. -/
def Obligations.ConsumptionIsExact : Prop :=
  ∀ (bs : List Byte) (s : State), Inv bs s →
    (s.stage = .done → s.pc.toNat = 16 + s.prgRomSize.toNat + s.chrRomSize.toNat * 0x2000 ∧
      16 ≤ s.pc.toNat ∧ s.pc.toNat ≤ 0x5FA010 ∧ bs.length = s.pc.toNat) ∧
    (s.stage = .fail → s.pc.toNat ≤ 0x5FA00F ∧ bs.length = s.pc.toNat)

/-- 42_image_assembler.md R147 and R150: at DONE the observation is an image, its blocks have the lengths its header
says, and each is absent exactly when its size is 0, that is when header byte 4 or 5 is 0. -/
def Obligations.DoneExposesAWellFormedImage : Prop :=
  ∀ (bs : List Byte) (s : State), Inv bs s → s.stage = .done →
    ∃ img, s.obs = some (.ok img) ∧ s.x = img.header.regs ∧
      (∀ l, img.prgRom = some l → l.length = img.header.prgRomSize.toNat) ∧
      (∀ l, img.chrRom = some l → l.length = img.header.chrRomSize.toNat * 0x2000) ∧
      (img.prgRom = none ↔ img.header.prgRomSize = 0#22) ∧ (img.chrRom = none ↔ img.header.chrRomSize = 0#8) ∧
      (img.prgRom = none ↔ bs[4]? = some 0#8) ∧ (img.chrRom = none ↔ bs[5]? = some 0#8)

/-- Derived from 60_exceptions.md R168 and 10_state.md R38: after an error the observation is the error alone; while
a run is busy it is Busy alone; in both, every result port is refused (log 13). -/
def Obligations.NothingPartialIsExposed : Prop :=
  ∀ s : State,
    (s.stage = .fail → s.obs = some (.error s.err)) ∧
    (s.stage = .hdr ∨ s.stage = .prg ∨ s.stage = .chr → s.obs = some .busy) ∧
    (s.stage ≠ .done →
      s.portX0 = .error .hostReadUnspecified ∧ s.portX1 = .error .hostReadUnspecified ∧
      s.portX2 = .error .hostReadUnspecified ∧ s.portX3 = .error .hostReadUnspecified ∧
      s.portX4 = .error .hostReadUnspecified ∧ s.portX5 = .error .hostReadUnspecified ∧
      s.portX6 = .error .hostReadUnspecified ∧ s.portX7 = .error .hostReadUnspecified ∧
      s.portPrgPresent = .error .hostReadUnspecified ∧ s.portChrPresent = .error .hostReadUnspecified ∧
      s.portPrgLen = .error .hostReadUnspecified ∧ s.portChrLen = .error .hostReadUnspecified ∧
      (∀ a, s.portPrgData a = .error .hostReadUnspecified) ∧ (∀ a, s.portChrData a = .error .hostReadUnspecified))

/-- Derived from 20_memory.md R52, R53 and R70 (log 13): at DONE a buffer read below the block's length gives the
stream byte copied there, the header's 16 bytes and the region before it ahead; a read at or beyond the length is
refused. -/
def Obligations.HostReadsTheStreamBytesAtDone : Prop :=
  ∀ (bs : List Byte) (s : State), Inv bs s → s.stage = .done →
    (∀ a : BitVec 22, a < s.prgLen → ∃ b, s.portPrgData a = .ok b ∧ bs[16 + a.toNat]? = some b) ∧
    (∀ a : BitVec 21, a < s.chrLen →
      ∃ b, s.portChrData a = .ok b ∧ bs[16 + s.prgRomSize.toNat + a.toNat]? = some b) ∧
    (∀ a : BitVec 22, s.prgLen ≤ a → s.portPrgData a = .error .hostReadUnspecified) ∧
    (∀ a : BitVec 21, s.chrLen ≤ a → s.portChrData a = .error .hostReadUnspecified)

/-- 42_image_assembler.md R154: every run ends in a terminal stage after at most `PC_MAX` + 1 beats, provided the
source answers every request; if it never answers, the machine waits for ever with the request outstanding. -/
def Obligations.EveryAnsweredRunEnds : Prop :=
  (∀ (bs : List Byte) (s : State), Inv bs s → (∀ p ∈ s.pins :: s.feed, answered p = true) →
    Config.pcMax ≤ bs.length + s.feed.length →
    ∃ n t, n + bs.length ≤ Config.pcMax + 1 ∧ runsTo n s t ∧ t.stage.terminal = true) ∧
  (∀ s : State, (∀ p ∈ s.pins :: s.feed, answered p = true) → Config.pcMax ≤ s.feed.length →
    ∃ n t, n ≤ Config.pcMax + 1 ∧ runsTo n s.restart t ∧ t.stage.terminal = true) ∧
  (∀ s : State, s.srcReq = true → (∀ p ∈ s.pins :: s.feed, p.rst = false ∧ p.srcAck = false) →
    ∀ n, ∃ t, runsTo n s t ∧ sameMachine s t ∧ t.srcReq = true)

/-- Derived from 42_image_assembler.md R140 (log 14): DECODE is the machine's own steps from the reset state, to the
first terminal stage or to the last moment known. -/
def Obligations.DecodeIsTheRunOfSteps : Prop :=
  ∀ s t : State, exec .decode s = .next t →
    ∃ n, n ≤ s.feed.length + 1 ∧ runsTo n s.restart t ∧ (t.stage.terminal = true ∨ n = s.feed.length + 1) ∧
      ∀ m, m < n → ∃ u, runsTo m s.restart u ∧ u.stage.terminal = false

/-- Derived from 42_image_assembler.md R140 and R154 (log 14): DECODE completes from every state, whatever the
moments, as long as no answer code is wrong; and if the source answers every request it ends in a terminal stage.
Completion of DECODE. -/
def Obligations.DecodeCompletes : Prop :=
  ∀ s : State, (∀ p ∈ s.pins :: s.feed, proper p = true) →
    ∃ t, exec .decode s = .next t ∧
      ((∀ p ∈ s.pins :: s.feed, answered p = true) → Config.pcMax ≤ s.feed.length → t.stage.terminal = true)

/-- 42_image_assembler.md R145: the whole-stream function. The run over a canonical source ends, after the stated
number of beats and no sooner, with the stated observation and `pc`; DECODE gives that end. -/
def Obligations.WholeStreamFunction : Prop :=
  ∀ (readable : Bool) (bytes : List Byte) (s : State),
    ∃ t, runsTo (decodeStream readable bytes).beats (s.restart.connect (.canonical readable bytes)) t ∧
      exec .decode (s.connect (.canonical readable bytes)) = .next t ∧
      t.obs = some (decodeStream readable bytes).obs ∧ t.pc.toNat = (decodeStream readable bytes).pc ∧
      t.stage.terminal = true ∧
      ∀ m, m < (decodeStream readable bytes).beats →
        ∃ u, runsTo m (s.restart.connect (.canonical readable bytes)) u ∧ u.stage.terminal = false

/-- Derived from 42_image_assembler.md R146 (log 17): the same for a source that becomes unreadable at an offset:
the run ends there with UnreadableSource if it asks for that offset, and as R145 says otherwise. -/
def Obligations.UnreadableInMidStream : Prop :=
  ∀ (src : Source) (s : State),
    ∃ t, exec .decode (s.connect src) = .next t ∧ t.obs = some (decodeSource src).obs ∧
      t.pc.toNat = (decodeSource src).pc ∧ t.stage.terminal = true

/-- 20_memory.md R63: bytes beyond the declared length are never consumed and are no error: a longer source decodes
to the same machine state as the source cut to the declared length. -/
def Obligations.TrailingBytesAreIgnored : Prop :=
  ∀ (bytes extra : List Byte) (s : State), 16 ≤ bytes.length →
    bytes.length = imageLen (bytes.getD 4 0#8) (bytes.getD 5 0#8) →
    ∃ t t', exec .decode (s.connect (.canonical true bytes)) = .next t ∧
      exec .decode (s.connect (.canonical true (bytes ++ extra))) = .next t' ∧ sameMachine t t' ∧
      t.stage = .done ∧ t.pc.toNat = bytes.length

/-- Derived from 20_memory.md R64 (the trainer is not skipped). Two images that differ in the trainer bit of header
byte 6 only decode to the same stage, error, `pc`, lengths and regions, and to records that differ in has_trainer
only. -/
def Obligations.TrainerIsNotSkipped : Prop :=
  ∀ (bytes : List Byte) (s : State),
    ∃ t t', exec .decode (s.connect (.canonical true bytes)) = .next t ∧
      exec .decode (s.connect (.canonical true (bytes.set 6 (bytes.getD 6 0#8 ^^^ 0x04#8)))) = .next t' ∧
      t' = { t with hbuf := t'.hbuf, x := { t.x with hasTrainer := t'.x.hasTrainer } }

/-- Derived from 42_image_assembler.md R151 (log 14): how long the source takes does not matter. Leaving out the
moments without an answer changes nothing of the machine a run ends with. -/
def Obligations.WaitingChangesNoResult : Prop :=
  ∀ (s : State) (ps : List Pins), (∀ p ∈ ps, p.rst = false) →
    ∀ t, exec .decode (s.withMoments ps) = .next t →
      ∃ t', exec .decode (s.withMoments (ps.filter fun p => p.srcAck)) = .next t' ∧ sameMachine t t'

/-! ### Encodings -/

/-- Derived from 30_encoding.md R81, R82, R87 (log 10): decoding the encoding of a well-formed operation by its row
gives it back, every operand at every value. -/
def Obligations.DecodeOfEncodeIsTheOperation : Prop :=
  ∀ i : Instr, i.wellFormed = true → decodeRow i.row (encode i) = .ok i ∧ i ∈ decodeAll (encode i)

/-- Derived from 30_encoding.md R81, R82, R87 (log 11): a few codes written out from the spec, decoded. -/
def Obligations.WrittenOutCodesDecode : Prop :=
  decodeTableWord 3 0 = some .hdec ∧ decodeTableWord 3 1 = some .rdprg ∧ decodeTableWord 3 2 = some .rdchr ∧
    decodeTableWord 3 3 = none ∧ decodeTableWord 3 7 = none ∧ decodeTableWord 1 1 = some .reset ∧
    decodeTableWord 1 0 = none ∧ decodeTableWord 0 0 = some .decode ∧
    decodeTableWord 128 0x7766554433221105A74B00001A53454E = some (.hdrTag 0x4E#8 0x45#8 0x53#8 0x1A#8) ∧
    decodeMapper 0x7766554433221105A74B00001A53454E#128 = .hdrMapper 0x40#8 0xA0#8 ∧
    decodePrgram 0x7766554433221105A74B00001A53454E#128 = .hdrPrgram 0x05#8

/-- 30_encoding.md R88, R89, R90: the hardware's own codes. -/
def Obligations.CodesOfTheEnumerations : Prop :=
  (ErrKind.code .none = 0#3 ∧ ErrKind.code .truncatedHeader = 1#3 ∧ ErrKind.code .truncatedRegionPrg = 2#3 ∧
    ErrKind.code .truncatedRegionChr = 3#3 ∧ ErrKind.code .unreadableSource = 4#3 ∧
    ErrKind.regionName .truncatedRegionPrg = some "prg_rom" ∧
    ErrKind.regionName .truncatedRegionChr = some "chr_rom") ∧
  (Mirroring.code .horizontal = 0#2 ∧ Mirroring.code .vertical = 1#2 ∧ Mirroring.code .unspecified = 2#2 ∧
    ∀ a : Byte, (Mirroring.code (baseMirroring a)).toNat = a.toNat % 2) ∧
  (∀ (r : Bool) (b : Byte), (⟨r, true, 0#2, b⟩ : Pins).presented = .answer (.byte b) ∧
    (⟨r, true, 1#2, b⟩ : Pins).presented = .answer .eos ∧
    (⟨r, true, 2#2, b⟩ : Pins).presented = .answer .unreadable ∧
    (⟨r, true, 3#2, b⟩ : Pins).presented = .notAnAnswer)

/-! ### The output ports -/

/-- 10_state.md R33: `done`, `fail` and `src_req` are those functions of `stage`. `src_req` = 1 asks for the byte at
offset `pc`: where the invariants hold, the byte a beat accepts is the stream's byte at that offset. In a terminal
stage `src_req` is 0 and stays 0 for every number of steps until a reset, and no more bytes are consumed. -/
def Obligations.StatusSignalsFollowTheStage : Prop :=
  (∀ s : State, (s.done = true ↔ s.stage = .done) ∧ (s.failed = true ↔ s.stage = .fail) ∧
    (s.srcReq = true ↔ s.stage = .hdr ∨ s.stage = .prg ∨ s.stage = .chr)) ∧
  (∀ (bs : List Byte) (s : State) (b : Byte), Inv bs s → s.pins.rst = false → Answering s (.byte b) →
    (accepted bs s)[s.pc.toNat]? = some b) ∧
  (∀ s : State, s.stage = .done ∨ s.stage = .fail → NoReset s →
    ∀ n, ∃ t, runsTo n s t ∧ t.srcReq = false ∧ t.pc = s.pc)

/-- Derived from 10_state.md R33, R34 and R38 and 92_eei_decisions.md D15 (log 13): the ports visible at any time carry
the three derived signals, the code of `stage`, and `pc`, and tell the host `stage` and `pc` exactly. The `err` port
gives the code of the error at FAIL, which is not NONE's code where the invariants hold and tells the errors apart; in
every other stage a read of it is refused. -/
def Obligations.StatusPortsCarryTheControlState : Prop :=
  (∀ s : State, s.statusPorts.srcReq = s.srcReq ∧ s.statusPorts.done = s.done ∧ s.statusPorts.fail = s.failed ∧
    s.statusPorts.stage = s.stage.code ∧ s.statusPorts.pc = s.pc) ∧
  (∀ s t : State, s.statusPorts = t.statusPorts ↔ s.stage = t.stage ∧ s.pc = t.pc) ∧
  (∀ s : State, (s.stage = .fail → s.portErr = .ok s.err.code) ∧
    (s.stage ≠ .fail → s.portErr = .error .hostReadUnspecified)) ∧
  (∀ s t : State, s.stage = .fail → t.stage = .fail → (s.portErr = t.portErr ↔ s.err = t.err)) ∧
  (∀ (bs : List Byte) (s : State), Inv bs s → s.portErr ≠ .ok 0#3)

/-- Derived from 10_state.md R32, R34, R37 and R38 (log 13): at DONE every result port answers. `x0` to `x7` give the
record the stream's header decodes to, the presence ports whether its two sizes are non-zero, and the length ports the
two counters, which are the byte lengths the record declares. -/
def Obligations.ResultPortsAnswerAtDone : Prop :=
  ∀ (bs : List Byte) (s : State), Inv bs s → s.stage = .done →
    s.portX0 = .ok (decodeHeader (firstNine bs)).formatTag ∧
    s.portX1 = .ok (decodeHeader (firstNine bs)).prgRomSize ∧
    s.portX2 = .ok (decodeHeader (firstNine bs)).chrRomSize ∧
    s.portX3 = .ok (decodeHeader (firstNine bs)).prgRamSize ∧
    s.portX4 = .ok (decodeHeader (firstNine bs)).mirroring.code ∧
    s.portX5 = .ok (decodeHeader (firstNine bs)).hasPersistentStorage ∧
    s.portX6 = .ok (decodeHeader (firstNine bs)).hasTrainer ∧
    s.portX7 = .ok (decodeHeader (firstNine bs)).mapperNumber ∧
    s.portPrgPresent = .ok (prgPresent (decodeHeader (firstNine bs)).prgRomSize) ∧
    s.portChrPresent = .ok (chrPresent (decodeHeader (firstNine bs)).chrRomSize) ∧
    s.portPrgLen = .ok s.prgLen ∧ s.prgLen = (decodeHeader (firstNine bs)).prgRomSize ∧
    s.portChrLen = .ok s.chrLen ∧ s.chrLen = chrBytes (decodeHeader (firstNine bs)).chrRomSize
end

