-- ==== Sys2Proof/Laws/Memory.lean ====
section
/-! SUPPORT. The laws of the result buffers: a read after a write, other places left alone, and the canonical form
kept by every operation. -/

namespace Sys2Proof.Machine

@[simp] theorem Memory.read_nil (a : Nat) : Memory.read [] a = none := rfl

theorem Memory.read_write_same (m : Memory) (a : Nat) (b : Byte) : (m.write a b).read a = some b := by
  induction m with
  | nil => simp [Memory.write, Memory.read]
  | cons c m ih =>
    unfold Memory.write
    split
    · simp [Memory.read]
    · split
      · simp [Memory.read]
      · rename_i h
        simp [Memory.read, Ne.symm h, ih]

theorem Memory.read_write_other (m : Memory) {a a' : Nat} (b : Byte) (h : a' ≠ a) :
    (m.write a b).read a' = m.read a' := by
  induction m with
  | nil => simp [Memory.write, Memory.read, Ne.symm h]
  | cons c m ih =>
    unfold Memory.write
    split
    · simp [Memory.read, Ne.symm h]
    · split
      · rename_i hc
        simp [Memory.read, Ne.symm h, ← hc]
      · simp [Memory.read, ih]

theorem Memory.read_write (m : Memory) (a a' : Nat) (b : Byte) :
    (m.write a b).read a' = if a' = a then some b else m.read a' := by
  split
  · next h => rw [h, Memory.read_write_same]
  · next h => rw [Memory.read_write_other _ _ h]

/-- Every entry of a canonical list lies above its head. -/
theorem Memory.wf_cons_iff (c : Host.Cell) (m : Memory) :
    Memory.wf (c :: m) = true ↔ (∀ d ∈ m.head?, c.1 < d.1) ∧ Memory.wf m = true := by
  cases m with
  | nil => simp [Memory.wf]
  | cons d m => simp [Memory.wf]

theorem Memory.head?_write (m : Memory) (a : Nat) (b : Byte) :
    ∀ d ∈ (m.write a b).head?, d.1 = a ∨ d ∈ m.head? := by
  cases m with
  | nil => simp [Memory.write]
  | cons c m =>
    unfold Memory.write
    split
    · simp
    · split <;> simp

/-- A write keeps the canonical form. -/
theorem Memory.wf_write (m : Memory) (a : Nat) (b : Byte) (h : m.wf = true) : (m.write a b).wf = true := by
  induction m with
  | nil => rfl
  | cons c m ih =>
    obtain ⟨hc, hm⟩ := (Memory.wf_cons_iff c m).1 h
    unfold Memory.write
    split
    · next ha => exact (Memory.wf_cons_iff _ _).2 ⟨by simpa using ha, h⟩
    · split
      · next ha => exact (Memory.wf_cons_iff _ _).2 ⟨fun d hd => ha ▸ hc d hd, hm⟩
      · next h1 h2 =>
        refine (Memory.wf_cons_iff _ _).2 ⟨fun d hd => ?_, ih hm⟩
        rcases Memory.head?_write m a b d hd with hd | hd
        · omega
        · exact hc d hd

theorem State.reset_prg_wf : State.reset.prg.wf = true := rfl

theorem State.reset_chr_wf : State.reset.chr.wf = true := rfl

theorem State.appendPrg_wf (s : State) (b : Byte) (h : s.prg.wf = true) : (s.appendPrg b).prg.wf = true :=
  Memory.wf_write _ _ _ h

theorem State.appendChr_wf (s : State) (b : Byte) (h : s.chr.wf = true) : (s.appendChr b).chr.wf = true :=
  Memory.wf_write _ _ _ h

end Sys2Proof.Machine
end

