-- ==== Sys2Proof/Laws/State.lean ====
section
/-! SUPPORT. One lemma per field per state update, true by unfolding, so that no proof unfolds a record update. -/

namespace Sys2Proof.Machine

variable (s : State)

@[simp] theorem State.setStage_stage (g : Stage) : (s.setStage g).stage = g := rfl
@[simp] theorem State.setStage_pc (g : Stage) : (s.setStage g).pc = s.pc := rfl
@[simp] theorem State.setStage_err (g : Stage) : (s.setStage g).err = s.err := rfl
@[simp] theorem State.setStage_hbuf (g : Stage) : (s.setStage g).hbuf = s.hbuf := rfl
@[simp] theorem State.setStage_x (g : Stage) : (s.setStage g).x = s.x := rfl
@[simp] theorem State.setStage_prgLen (g : Stage) : (s.setStage g).prgLen = s.prgLen := rfl
@[simp] theorem State.setStage_chrLen (g : Stage) : (s.setStage g).chrLen = s.chrLen := rfl
@[simp] theorem State.setStage_prg (g : Stage) : (s.setStage g).prg = s.prg := rfl
@[simp] theorem State.setStage_chr (g : Stage) : (s.setStage g).chr = s.chr := rfl
@[simp] theorem State.setStage_epoch (g : Stage) : (s.setStage g).epoch = s.epoch := rfl
@[simp] theorem State.setStage_pins (g : Stage) : (s.setStage g).pins = s.pins := rfl
@[simp] theorem State.setStage_feed (g : Stage) : (s.setStage g).feed = s.feed := rfl

@[simp] theorem State.advancePc_stage : (s.advancePc).stage = s.stage := rfl
@[simp] theorem State.advancePc_pc : (s.advancePc).pc = s.pc + 1#23 := rfl
@[simp] theorem State.advancePc_err : (s.advancePc).err = s.err := rfl
@[simp] theorem State.advancePc_hbuf : (s.advancePc).hbuf = s.hbuf := rfl
@[simp] theorem State.advancePc_x : (s.advancePc).x = s.x := rfl
@[simp] theorem State.advancePc_prgLen : (s.advancePc).prgLen = s.prgLen := rfl
@[simp] theorem State.advancePc_chrLen : (s.advancePc).chrLen = s.chrLen := rfl
@[simp] theorem State.advancePc_prg : (s.advancePc).prg = s.prg := rfl
@[simp] theorem State.advancePc_chr : (s.advancePc).chr = s.chr := rfl
@[simp] theorem State.advancePc_epoch : (s.advancePc).epoch = s.epoch := rfl
@[simp] theorem State.advancePc_pins : (s.advancePc).pins = s.pins := rfl
@[simp] theorem State.advancePc_feed : (s.advancePc).feed = s.feed := rfl

@[simp] theorem State.storeHeaderByte_stage (k : Nat) (b : Byte) : (s.storeHeaderByte k b).stage = s.stage := rfl
@[simp] theorem State.storeHeaderByte_pc (k : Nat) (b : Byte) : (s.storeHeaderByte k b).pc = s.pc := rfl
@[simp] theorem State.storeHeaderByte_err (k : Nat) (b : Byte) : (s.storeHeaderByte k b).err = s.err := rfl
@[simp] theorem State.storeHeaderByte_hbuf (k : Nat) (b : Byte) : (s.storeHeaderByte k b).hbuf = s.hbuf.setIfInBounds k (some b) := rfl
@[simp] theorem State.storeHeaderByte_x (k : Nat) (b : Byte) : (s.storeHeaderByte k b).x = s.x := rfl
@[simp] theorem State.storeHeaderByte_prgLen (k : Nat) (b : Byte) : (s.storeHeaderByte k b).prgLen = s.prgLen := rfl
@[simp] theorem State.storeHeaderByte_chrLen (k : Nat) (b : Byte) : (s.storeHeaderByte k b).chrLen = s.chrLen := rfl
@[simp] theorem State.storeHeaderByte_prg (k : Nat) (b : Byte) : (s.storeHeaderByte k b).prg = s.prg := rfl
@[simp] theorem State.storeHeaderByte_chr (k : Nat) (b : Byte) : (s.storeHeaderByte k b).chr = s.chr := rfl
@[simp] theorem State.storeHeaderByte_epoch (k : Nat) (b : Byte) : (s.storeHeaderByte k b).epoch = s.epoch := rfl
@[simp] theorem State.storeHeaderByte_pins (k : Nat) (b : Byte) : (s.storeHeaderByte k b).pins = s.pins := rfl
@[simp] theorem State.storeHeaderByte_feed (k : Nat) (b : Byte) : (s.storeHeaderByte k b).feed = s.feed := rfl

@[simp] theorem State.latchHeader_stage (r : HeaderRecord) : (s.latchHeader r).stage = s.stage := rfl
@[simp] theorem State.latchHeader_pc (r : HeaderRecord) : (s.latchHeader r).pc = s.pc := rfl
@[simp] theorem State.latchHeader_err (r : HeaderRecord) : (s.latchHeader r).err = s.err := rfl
@[simp] theorem State.latchHeader_hbuf (r : HeaderRecord) : (s.latchHeader r).hbuf = s.hbuf := rfl
@[simp] theorem State.latchHeader_x (r : HeaderRecord) : (s.latchHeader r).x = r.regs := rfl
@[simp] theorem State.latchHeader_prgLen (r : HeaderRecord) : (s.latchHeader r).prgLen = s.prgLen := rfl
@[simp] theorem State.latchHeader_chrLen (r : HeaderRecord) : (s.latchHeader r).chrLen = s.chrLen := rfl
@[simp] theorem State.latchHeader_prg (r : HeaderRecord) : (s.latchHeader r).prg = s.prg := rfl
@[simp] theorem State.latchHeader_chr (r : HeaderRecord) : (s.latchHeader r).chr = s.chr := rfl
@[simp] theorem State.latchHeader_epoch (r : HeaderRecord) : (s.latchHeader r).epoch = s.epoch := rfl
@[simp] theorem State.latchHeader_pins (r : HeaderRecord) : (s.latchHeader r).pins = s.pins := rfl
@[simp] theorem State.latchHeader_feed (r : HeaderRecord) : (s.latchHeader r).feed = s.feed := rfl

@[simp] theorem State.setX_stage (y : HeaderRegs) : (s.setX y).stage = s.stage := rfl
@[simp] theorem State.setX_pc (y : HeaderRegs) : (s.setX y).pc = s.pc := rfl
@[simp] theorem State.setX_err (y : HeaderRegs) : (s.setX y).err = s.err := rfl
@[simp] theorem State.setX_hbuf (y : HeaderRegs) : (s.setX y).hbuf = s.hbuf := rfl
@[simp] theorem State.setX_x (y : HeaderRegs) : (s.setX y).x = y := rfl
@[simp] theorem State.setX_prgLen (y : HeaderRegs) : (s.setX y).prgLen = s.prgLen := rfl
@[simp] theorem State.setX_chrLen (y : HeaderRegs) : (s.setX y).chrLen = s.chrLen := rfl
@[simp] theorem State.setX_prg (y : HeaderRegs) : (s.setX y).prg = s.prg := rfl
@[simp] theorem State.setX_chr (y : HeaderRegs) : (s.setX y).chr = s.chr := rfl
@[simp] theorem State.setX_epoch (y : HeaderRegs) : (s.setX y).epoch = s.epoch := rfl
@[simp] theorem State.setX_pins (y : HeaderRegs) : (s.setX y).pins = s.pins := rfl
@[simp] theorem State.setX_feed (y : HeaderRegs) : (s.setX y).feed = s.feed := rfl

@[simp] theorem State.appendPrg_stage (b : Byte) : (s.appendPrg b).stage = s.stage := rfl
@[simp] theorem State.appendPrg_pc (b : Byte) : (s.appendPrg b).pc = s.pc := rfl
@[simp] theorem State.appendPrg_err (b : Byte) : (s.appendPrg b).err = s.err := rfl
@[simp] theorem State.appendPrg_hbuf (b : Byte) : (s.appendPrg b).hbuf = s.hbuf := rfl
@[simp] theorem State.appendPrg_x (b : Byte) : (s.appendPrg b).x = s.x := rfl
@[simp] theorem State.appendPrg_prgLen (b : Byte) : (s.appendPrg b).prgLen = s.prgLen + 1#22 := rfl
@[simp] theorem State.appendPrg_chrLen (b : Byte) : (s.appendPrg b).chrLen = s.chrLen := rfl
@[simp] theorem State.appendPrg_prg (b : Byte) : (s.appendPrg b).prg = s.prg.write s.prgLen.toNat b := rfl
@[simp] theorem State.appendPrg_chr (b : Byte) : (s.appendPrg b).chr = s.chr := rfl
@[simp] theorem State.appendPrg_epoch (b : Byte) : (s.appendPrg b).epoch = s.epoch := rfl
@[simp] theorem State.appendPrg_pins (b : Byte) : (s.appendPrg b).pins = s.pins := rfl
@[simp] theorem State.appendPrg_feed (b : Byte) : (s.appendPrg b).feed = s.feed := rfl

@[simp] theorem State.appendChr_stage (b : Byte) : (s.appendChr b).stage = s.stage := rfl
@[simp] theorem State.appendChr_pc (b : Byte) : (s.appendChr b).pc = s.pc := rfl
@[simp] theorem State.appendChr_err (b : Byte) : (s.appendChr b).err = s.err := rfl
@[simp] theorem State.appendChr_hbuf (b : Byte) : (s.appendChr b).hbuf = s.hbuf := rfl
@[simp] theorem State.appendChr_x (b : Byte) : (s.appendChr b).x = s.x := rfl
@[simp] theorem State.appendChr_prgLen (b : Byte) : (s.appendChr b).prgLen = s.prgLen := rfl
@[simp] theorem State.appendChr_chrLen (b : Byte) : (s.appendChr b).chrLen = s.chrLen + 1#21 := rfl
@[simp] theorem State.appendChr_prg (b : Byte) : (s.appendChr b).prg = s.prg := rfl
@[simp] theorem State.appendChr_chr (b : Byte) : (s.appendChr b).chr = s.chr.write s.chrLen.toNat b := rfl
@[simp] theorem State.appendChr_epoch (b : Byte) : (s.appendChr b).epoch = s.epoch := rfl
@[simp] theorem State.appendChr_pins (b : Byte) : (s.appendChr b).pins = s.pins := rfl
@[simp] theorem State.appendChr_feed (b : Byte) : (s.appendChr b).feed = s.feed := rfl

@[simp] theorem State.raise_stage (e : ErrKind) : (s.raise e).stage = .fail := rfl
@[simp] theorem State.raise_pc (e : ErrKind) : (s.raise e).pc = s.pc := rfl
@[simp] theorem State.raise_err (e : ErrKind) : (s.raise e).err = e := rfl
@[simp] theorem State.raise_hbuf (e : ErrKind) : (s.raise e).hbuf = s.hbuf := rfl
@[simp] theorem State.raise_x (e : ErrKind) : (s.raise e).x = s.x := rfl
@[simp] theorem State.raise_prgLen (e : ErrKind) : (s.raise e).prgLen = s.prgLen := rfl
@[simp] theorem State.raise_chrLen (e : ErrKind) : (s.raise e).chrLen = s.chrLen := rfl
@[simp] theorem State.raise_prg (e : ErrKind) : (s.raise e).prg = s.prg := rfl
@[simp] theorem State.raise_chr (e : ErrKind) : (s.raise e).chr = s.chr := rfl
@[simp] theorem State.raise_epoch (e : ErrKind) : (s.raise e).epoch = s.epoch := rfl
@[simp] theorem State.raise_pins (e : ErrKind) : (s.raise e).pins = s.pins := rfl
@[simp] theorem State.raise_feed (e : ErrKind) : (s.raise e).feed = s.feed := rfl

@[simp] theorem State.restart_stage : (s.restart).stage = .hdr := rfl
@[simp] theorem State.restart_pc : (s.restart).pc = 0#23 := rfl
@[simp] theorem State.restart_err : (s.restart).err = .none := rfl
@[simp] theorem State.restart_hbuf : (s.restart).hbuf = #v[none, none, none, none, none, none, none, none, none] := rfl
@[simp] theorem State.restart_x : (s.restart).x = HeaderRegs.unwritten := rfl
@[simp] theorem State.restart_prgLen : (s.restart).prgLen = 0#22 := rfl
@[simp] theorem State.restart_chrLen : (s.restart).chrLen = 0#21 := rfl
@[simp] theorem State.restart_prg : (s.restart).prg = [] := rfl
@[simp] theorem State.restart_chr : (s.restart).chr = [] := rfl
@[simp] theorem State.restart_epoch : (s.restart).epoch = s.epoch + 1 := rfl
@[simp] theorem State.restart_pins : (s.restart).pins = s.pins := rfl
@[simp] theorem State.restart_feed : (s.restart).feed = s.feed := rfl

@[simp] theorem State.tick_stage : (s.tick).stage = s.stage := rfl
@[simp] theorem State.tick_pc : (s.tick).pc = s.pc := rfl
@[simp] theorem State.tick_err : (s.tick).err = s.err := rfl
@[simp] theorem State.tick_hbuf : (s.tick).hbuf = s.hbuf := rfl
@[simp] theorem State.tick_x : (s.tick).x = s.x := rfl
@[simp] theorem State.tick_prgLen : (s.tick).prgLen = s.prgLen := rfl
@[simp] theorem State.tick_chrLen : (s.tick).chrLen = s.chrLen := rfl
@[simp] theorem State.tick_prg : (s.tick).prg = s.prg := rfl
@[simp] theorem State.tick_chr : (s.tick).chr = s.chr := rfl
@[simp] theorem State.tick_epoch : (s.tick).epoch = s.epoch := rfl
@[simp] theorem State.tick_pins : (s.tick).pins = s.feed.headD Pins.idle := rfl
@[simp] theorem State.tick_feed : (s.tick).feed = s.feed.tail := rfl

end Sys2Proof.Machine
end

