-- ==== Sys2Proof/Laws/Ops.lean ====
section
/-! SUPPORT. What each shared operation can do, said once: reading the source ports, `Next()`, a beat. -/

namespace Sys2Proof.Machine

@[simp] theorem onNext_next (s : State) (f : State → Result) : onNext (.next s) f = f s := rfl

@[simp] theorem onNext_fault (e : Fault) (f : State → Result) : onNext (.fault e) f = .fault e := rfl

@[simp] theorem onNext_refused (e : Refusal) (f : State → Result) : onNext (.refused e) f = .refused e := rfl

/-- A result that goes on came from a next state. -/
theorem onNext_eq_next {r : Result} {f : State → Result} {t : State} (h : onNext r f = .next t) :
    ∃ u, r = .next u ∧ f u = .next t := by
  cases r with
  | next u => exact ⟨u, rfl, h⟩
  | fault e => simp at h
  | refused e => simp at h

theorem srcReq_eq_not_terminal (s : State) : s.srcReq = !s.stage.terminal := by
  cases h : s.stage <;> simp [State.srcReq, Stage.terminal, h]

theorem fetchNext_of_not_srcReq {s : State} (h : s.srcReq = false) : s.fetchNext = .noBeat := by
  simp [State.fetchNext, h]

theorem fetchNext_of_nothing {s : State} (h : s.pins.presented = .nothing) : s.fetchNext = .noBeat := by
  simp [State.fetchNext, h]

theorem fetchNext_of_byte {s : State} {b : Byte} (hr : s.srcReq = true) (h : s.pins.presented = .answer (.byte b))
    (hp : s.pc ≠ BitVec.allOnes 23) : s.fetchNext = .byte b s.advancePc := by
  rw [State.fetchNext, if_neg (by simp [hr]), h]
  exact if_neg hp

theorem fetchNext_of_eos {s : State} (hr : s.srcReq = true) (h : s.pins.presented = .answer .eos) :
    s.fetchNext = .eos := by
  simp [State.fetchNext, h, hr]

theorem fetchNext_of_unreadable {s : State} (hr : s.srcReq = true) (h : s.pins.presented = .answer .unreadable) :
    s.fetchNext = .unreadable := by
  simp [State.fetchNext, h, hr]

/-- What `Next()` gave says what the source presented (20_memory.md R56). -/
theorem fetchNext_eq_byte {s t : State} {b : Byte} (h : s.fetchNext = .byte b t) :
    s.srcReq = true ∧ s.pins.presented = .answer (.byte b) ∧ s.pc ≠ BitVec.allOnes 23 ∧ t = s.advancePc := by
  unfold State.fetchNext at h
  split at h
  · simp at h
  · next hr =>
    split at h
    · simp at h
    · simp at h
    · simp at h
    · simp at h
    · next b' hb =>
      split at h
      · simp at h
      · next hp =>
        simp only [Fetched.byte.injEq] at h
        exact ⟨by simpa using hr, by rw [hb, h.1], hp, h.2.symm⟩

theorem fetchNext_eq_eos {s : State} (h : s.fetchNext = .eos) :
    s.srcReq = true ∧ s.pins.presented = .answer .eos := by
  unfold State.fetchNext at h
  split at h
  · simp at h
  · next hr =>
    split at h
    · simp at h
    · simp at h
    · next hb => exact ⟨by simpa using hr, hb⟩
    · simp at h
    · split at h <;> simp at h

theorem fetchNext_eq_unreadable {s : State} (h : s.fetchNext = .unreadable) :
    s.srcReq = true ∧ s.pins.presented = .answer .unreadable := by
  unfold State.fetchNext at h
  split at h
  · simp at h
  · next hr =>
    split at h
    · simp at h
    · simp at h
    · simp at h
    · next hb => exact ⟨by simpa using hr, hb⟩
    · split at h <;> simp at h

/-- A full cursor is met only with a byte to accept (log 5). -/
theorem fetchNext_eq_cursorFull {s : State} (h : s.fetchNext = .cursorFull) :
    s.srcReq = true ∧ s.pc = BitVec.allOnes 23 ∧ ∃ b, s.pins.presented = .answer (.byte b) := by
  unfold State.fetchNext at h
  split at h
  · cases h
  · next hr =>
    split at h
    · cases h
    · cases h
    · cases h
    · cases h
    · next b hb =>
      split at h
      · next hp => exact ⟨by simpa using hr, hp, b, hb⟩
      · cases h

/-- Only `src_kind` = 3 presents no answer while `src_ack` is high (30_encoding.md R90). -/
theorem presented_eq_notAnAnswer {p : Pins} (h : p.presented = .notAnAnswer) : p.srcAck = true ∧ p.srcKind = 3#2 := by
  unfold Pins.presented at h
  split at h
  · cases h
  · next ha =>
    split at h
    · cases h
    · split at h
      · cases h
      · split at h
        · cases h
        · exact ⟨by simpa using ha, by bv_omega⟩

/-- The refusal is met only with a request outstanding and `src_kind` = 3 (log 7). -/
theorem fetchNext_eq_notAnAnswer {s : State} (h : s.fetchNext = .notAnAnswer) :
    s.srcReq = true ∧ s.pins.srcAck = true ∧ s.pins.srcKind = 3#2 := by
  unfold State.fetchNext at h
  split at h
  · cases h
  · next hr =>
    split at h
    · cases h
    · next hn => exact ⟨by simpa using hr, presented_eq_notAnAnswer hn⟩
    · cases h
    · cases h
    · split at h <;> cases h

/-- A beat whose byte goes on to a next state stops nowhere but at a full cursor and at `src_kind` = 3. -/
theorem beat_completes {short : ErrKind} {onByte : Byte → State → Result} {s : State}
    (hc : s.fetchNext ≠ .cursorFull) (hn : s.fetchNext ≠ .notAnAnswer)
    (hb : ∀ b, s.fetchNext = .byte b s.advancePc → ∃ t, onByte b s.advancePc = .next t) :
    ∃ t, beat short onByte s = .next t := by
  unfold beat
  split
  · next b u hu =>
    obtain ⟨-, -, -, rfl⟩ := fetchNext_eq_byte hu
    exact hb b hu
  · exact ⟨_, rfl⟩
  · exact ⟨_, rfl⟩
  · exact ⟨_, rfl⟩
  · next h => exact absurd h hc
  · next h => exact absurd h hn

/-- A beat that answers a next state did one of four things: went on with an accepted byte, raised the error of a
short source, raised UnreadableSource, or did nothing. -/
theorem beat_cases {short : ErrKind} {onByte : Byte → State → Result} {s t : State}
    (h : beat short onByte s = .next t) :
    (∃ b, s.fetchNext = .byte b s.advancePc ∧ onByte b s.advancePc = .next t) ∨
      (s.fetchNext = .eos ∧ t = s.raise short) ∨
      (s.fetchNext = .unreadable ∧ t = s.raise .unreadableSource) ∨
      (s.fetchNext = .noBeat ∧ t = s) := by
  unfold beat at h
  split at h
  · next b u hb =>
    obtain ⟨-, -, -, rfl⟩ := fetchNext_eq_byte hb
    exact .inl ⟨b, hb, h⟩
  · next hb => simp only [Host.Outcome.next.injEq] at h; exact .inr (.inl ⟨hb, h.symm⟩)
  · next hb => simp only [Host.Outcome.next.injEq] at h; exact .inr (.inr (.inl ⟨hb, h.symm⟩))
  · next hb => simp only [Host.Outcome.next.injEq] at h; exact .inr (.inr (.inr ⟨hb, h.symm⟩))
  · simp at h
  · simp at h

theorem beat_of_byte {s : State} {b : Byte} (short : ErrKind) (onByte : Byte → State → Result)
    (h : s.fetchNext = .byte b s.advancePc) : beat short onByte s = onByte b s.advancePc := by
  simp [beat, h]

theorem beat_of_eos {s : State} (short : ErrKind) (onByte : Byte → State → Result) (h : s.fetchNext = .eos) :
    beat short onByte s = .next (s.raise short) := by
  simp [beat, h]

theorem beat_of_unreadable {s : State} (short : ErrKind) (onByte : Byte → State → Result)
    (h : s.fetchNext = .unreadable) : beat short onByte s = .next (s.raise .unreadableSource) := by
  simp [beat, h]

theorem beat_of_noBeat {s : State} (short : ErrKind) (onByte : Byte → State → Result) (h : s.fetchNext = .noBeat) :
    beat short onByte s = .next s := by
  simp [beat, h]

/-- The cursor as a number after one more byte: it does not wrap where `Next()` accepts one. -/
theorem advancePc_toNat {s : State} (h : s.pc ≠ BitVec.allOnes 23) : s.advancePc.pc.toNat = s.pc.toNat + 1 := by
  have h1 : s.pc.toNat ≠ 2 ^ 23 - 1 := fun e => h (BitVec.eq_of_toNat_eq (by simpa using e))
  have h2 := s.pc.isLt
  simp only [State.advancePc_pc, BitVec.toNat_add, BitVec.toNat_ofNat]
  omega

/-- The header buffer after a store, cell by cell. -/
theorem storeHeaderByte_get (s : State) (k : Nat) (b : Byte) (j : Fin 9) :
    (s.storeHeaderByte k b).hbuf.get j = if j.val = k then some b else s.hbuf.get j := by
  simp only [State.storeHeaderByte_hbuf, Vector.get_eq_getElem, Vector.getElem_setIfInBounds]
  by_cases h : k = j.val <;> simp [h, eq_comm]

/-- The record of registers that hold a complete record. -/
@[simp] theorem HeaderRecord.regs_record (r : HeaderRecord) : r.regs.record = some r := rfl

/-- The next state of a stage beat, by stage (42_image_assembler.md R156). -/
theorem stageBeat_hdr {s : State} (h : s.stage = .hdr) : stageBeat s = execHdec s := by simp [stageBeat, h]

theorem stageBeat_prg {s : State} (h : s.stage = .prg) : stageBeat s = execRdprg s := by simp [stageBeat, h]

theorem stageBeat_chr {s : State} (h : s.stage = .chr) : stageBeat s = execRdchr s := by simp [stageBeat, h]

theorem stageBeat_terminal {s : State} (h : s.stage.terminal = true) : stageBeat s = .next s := by
  cases hs : s.stage <;> simp_all [stageBeat, Stage.terminal]

end Sys2Proof.Machine
end

