-- ==== Sys2Proof/Laws/Step.lean ====
section
/-! SUPPORT. The step function is one moment of the input ports, then the ports' next levels. -/

namespace Sys2Proof.Machine

/-- The step, by `rst` and by stage. -/
theorem step_eq_moment (s : State) : step s = onNext (moment s) fun t => .next t.tick := by
  unfold step moment State.fetchCode
  cases hr : s.pins.rst with
  | true => rfl
  | false => cases hs : s.stage <;> simp [decode, decodeStage, Stage.code, exec, stageBeat, hs]

/-- The inversion of a step that gives a next state. -/
theorem step_cases {s t : State} (h : step s = .next t) :
    (s.pins.rst = true ∧ t = s.restart.tick) ∨
      (s.pins.rst = false ∧ ∃ u, stageBeat s = .next u ∧ t = u.tick) := by
  rw [step_eq_moment] at h
  obtain ⟨u, hu, ht⟩ := onNext_eq_next h
  simp only [Host.Outcome.next.injEq] at ht
  cases hr : s.pins.rst with
  | true => simp [moment, hr, execReset] at hu; exact .inl ⟨rfl, by rw [← ht, ← hu]⟩
  | false => simp [moment, hr] at hu; exact .inr ⟨rfl, u, hu, ht.symm⟩

theorem run_zero (s : State) : core.run 0 s = .next s := rfl

theorem run_succ_next {n : Nat} {s u : State} (h : step s = .next u) : core.run (n + 1) s = core.run n u := by
  have h' : core.step s = .next u := h
  simp only [Host.Core.run, h']

/-- A run of one step more, taken apart. -/
theorem run_succ_eq_next {n : Nat} {s t : State} (h : core.run (n + 1) s = .next t) :
    ∃ u, step s = .next u ∧ core.run n u = .next t := by
  cases hs : step s with
  | next u => exact ⟨u, rfl, by rwa [run_succ_next hs] at h⟩
  | fault e =>
    have h' : core.step s = .fault e := hs
    simp [Host.Core.run, h'] at h
  | refused e =>
    have h' : core.step s = .refused e := hs
    simp [Host.Core.run, h'] at h

end Sys2Proof.Machine
end

