-- ==== Sys2Proof/Laws/Beats.lean ====
section
/-! SUPPORT. Everything a beat of HDEC, RDPRG and RDCHR that gives a next state can have done, said once per
operation, and which fields an accepted byte touches. -/

namespace Sys2Proof.Machine

open Sys2Proof.Safety

/-- Without a beat no answer is being given. -/
theorem not_answering_of_noBeat {s : State} (h : s.fetchNext = .noBeat) (a : Answer) : ¬ Answering s a := by
  rintro ⟨h1, h2⟩
  cases a with
  | eos => rw [fetchNext_of_eos h1 h2] at h; cases h
  | unreadable => rw [fetchNext_of_unreadable h1 h2] at h; cases h
  | byte b =>
    rw [State.fetchNext, if_neg (by simp [h1]), h2] at h
    simp only at h
    split at h <;> cases h

/-- A moment gives one answer at most. -/
theorem answering_inj {s : State} {a b : Answer} (h : Answering s a) (h' : Answering s b) : a = b := by
  simpa using h.2.symm.trans h'.2

/-- A beat that gives a next state, in terms of the answer. -/
theorem beat_answer_cases {short : ErrKind} {onByte : Byte → State → Result} {s t : State}
    (h : beat short onByte s = .next t) :
    (∃ b, Answering s (.byte b) ∧ s.pc ≠ BitVec.allOnes 23 ∧ onByte b s.advancePc = .next t) ∨
      (Answering s .eos ∧ t = s.raise short) ∨
      (Answering s .unreadable ∧ t = s.raise .unreadableSource) ∨
      ((∀ a, ¬ Answering s a) ∧ t = s) := by
  rcases beat_cases h with ⟨b, hf, ho⟩ | ⟨hf, rfl⟩ | ⟨hf, rfl⟩ | ⟨hf, rfl⟩
  · obtain ⟨h1, h2, h3, -⟩ := fetchNext_eq_byte hf
    exact .inl ⟨b, ⟨h1, h2⟩, h3, ho⟩
  · exact .inr (.inl ⟨fetchNext_eq_eos hf, rfl⟩)
  · exact .inr (.inr (.inl ⟨fetchNext_eq_unreadable hf, rfl⟩))
  · exact .inr (.inr (.inr ⟨not_answering_of_noBeat hf, rfl⟩))

/-- HDEC (40_header_decoder.md R110). -/
theorem execHdec_cases {s t : State} (h : execHdec s = .next t) :
    (∃ b, Answering s (.byte b) ∧ s.pc ≠ BitVec.allOnes 23 ∧ t = s.advancePc.acceptHeaderByte s.pc b) ∨
      (Answering s .eos ∧ t = s.raise .truncatedHeader) ∨
      (Answering s .unreadable ∧ t = s.raise .unreadableSource) ∨
      ((∀ a, ¬ Answering s a) ∧ t = s) := by
  rcases beat_answer_cases h with ⟨b, ha, hp, ho⟩ | h
  · exact .inl ⟨b, ha, hp, (Host.Outcome.next.inj ho).symm⟩
  · exact .inr h

/-- RDPRG (41_region_reader.md R130). -/
theorem execRdprg_cases {s t : State} (h : execRdprg s = .next t) :
    (∃ b, Answering s (.byte b) ∧ s.pc ≠ BitVec.allOnes 23 ∧ s.prgLen.toNat < Config.prgBufBytes ∧
        t = s.advancePc.acceptPrgByte b) ∨
      (Answering s .eos ∧ t = s.raise .truncatedRegionPrg) ∨
      (Answering s .unreadable ∧ t = s.raise .unreadableSource) ∨
      ((∀ a, ¬ Answering s a) ∧ t = s) := by
  rcases beat_answer_cases h with ⟨b, ha, hp, ho⟩ | h
  · split at ho
    · next hl => exact .inl ⟨b, ha, hp, hl, (Host.Outcome.next.inj ho).symm⟩
    · cases ho
  · exact .inr h

/-- RDCHR (41_region_reader.md R132). -/
theorem execRdchr_cases {s t : State} (h : execRdchr s = .next t) :
    (∃ b, Answering s (.byte b) ∧ s.pc ≠ BitVec.allOnes 23 ∧ s.chrLen.toNat < Config.chrBufBytes ∧
        t = s.advancePc.acceptChrByte b) ∨
      (Answering s .eos ∧ t = s.raise .truncatedRegionChr) ∨
      (Answering s .unreadable ∧ t = s.raise .unreadableSource) ∨
      ((∀ a, ¬ Answering s a) ∧ t = s) := by
  rcases beat_answer_cases h with ⟨b, ha, hp, ho⟩ | h
  · split at ho
    · next hl => exact .inl ⟨b, ha, hp, hl, (Host.Outcome.next.inj ho).symm⟩
    · cases ho
  · exact .inr h

/-- A header byte before the sixteenth. -/
theorem acceptHeaderByte_of_ne (k : BitVec 23) (b : Byte) (s : State) (h : k ≠ 15#23) :
    s.acceptHeaderByte k b = if k ≤ 8#23 then s.storeHeaderByte k.toNat b else s := by
  simp [State.acceptHeaderByte, h]

/-- The sixteenth header byte. -/
theorem acceptHeaderByte_last (b : Byte) (s : State) : s.acceptHeaderByte 15#23 b = s.finishHeader := by
  simp [State.acceptHeaderByte]

/-- The fields a program-code byte leaves alone. -/
theorem acceptPrgByte_frame (b : Byte) (s : State) :
    (s.acceptPrgByte b).pc = s.pc ∧ (s.acceptPrgByte b).err = s.err ∧ (s.acceptPrgByte b).hbuf = s.hbuf ∧
      (s.acceptPrgByte b).x = s.x ∧ (s.acceptPrgByte b).chrLen = s.chrLen ∧ (s.acceptPrgByte b).chr = s.chr ∧
      (s.acceptPrgByte b).epoch = s.epoch ∧ (s.acceptPrgByte b).pins = s.pins ∧
      (s.acceptPrgByte b).feed = s.feed := by
  unfold State.acceptPrgByte
  dsimp only
  split <;> simp

/-- The fields a graphics byte leaves alone. -/
theorem acceptChrByte_frame (b : Byte) (s : State) :
    (s.acceptChrByte b).pc = s.pc ∧ (s.acceptChrByte b).err = s.err ∧ (s.acceptChrByte b).hbuf = s.hbuf ∧
      (s.acceptChrByte b).x = s.x ∧ (s.acceptChrByte b).prgLen = s.prgLen ∧ (s.acceptChrByte b).prg = s.prg ∧
      (s.acceptChrByte b).epoch = s.epoch ∧ (s.acceptChrByte b).pins = s.pins ∧
      (s.acceptChrByte b).feed = s.feed := by
  unfold State.acceptChrByte
  dsimp only
  split <;> simp

end Sys2Proof.Machine
end

