-- ==== Sys2Proof/Laws/Decode.lean ====
section
/-! SUPPORT. A byte placed in a header word is read back at its offset and nowhere else. -/

namespace Sys2Proof

theorem headerByte_getLsbD (h : BitVec 128) (k i : Nat) :
    (headerByte h k).getLsbD i = (decide (i < 8) && h.getLsbD (8 * k + i)) := by
  simp [headerByte]

theorem placeByte_getLsbD (k : Nat) (b : Byte) (i : Nat) :
    (placeByte k b).getLsbD i = (decide (i < 128) && decide (8 * k ≤ i) && b.getLsbD (i - 8 * k)) := by
  simp only [placeByte, BitVec.getLsbD_shiftLeft, BitVec.getLsbD_setWidth]
  by_cases h1 : i < 128 <;> by_cases h2 : i < 8 * k
  · have : ¬ 8 * k ≤ i := by omega
    simp [h1, h2, this]
  · have h3 : 8 * k ≤ i := by omega
    have h4 : i - 8 * k < 128 := by omega
    simp [h1, h2, h3, h4]
  · simp [h1]
  · simp [h1]

@[simp] theorem headerByte_or (g h : BitVec 128) (k : Nat) :
    headerByte (g ||| h) k = headerByte g k ||| headerByte h k := by
  apply BitVec.eq_of_getLsbD_eq
  intro i hi
  simp [headerByte_getLsbD, Bool.and_or_distrib_left]

theorem headerByte_placeByte_same {k : Nat} (hk : k < 16) (b : Byte) : headerByte (placeByte k b) k = b := by
  apply BitVec.eq_of_getLsbD_eq
  intro i hi
  simp only [headerByte_getLsbD, placeByte_getLsbD, hi]
  have h1 : 8 * k + i < 128 := by omega
  simp [h1]

theorem headerByte_placeByte_other {j k : Nat} (b : Byte) (h : j ≠ k) : headerByte (placeByte k b) j = 0#8 := by
  apply BitVec.eq_of_getLsbD_eq
  intro i hi
  simp only [headerByte_getLsbD, placeByte_getLsbD, BitVec.getLsbD_zero]
  rcases Nat.lt_or_gt_of_ne h with h | h
  · have : ¬ 8 * k ≤ 8 * j + i := by omega
    simp [this]
  · have : b.getLsbD (8 * j + i - 8 * k) = false := BitVec.getLsbD_of_ge b _ (by omega)
    simp [this]

theorem onlyBits_iff (m b : Byte) : onlyBits m b = true ↔ b &&& m = b := by simp [onlyBits]

theorem onlyBits_masked (m b : Byte) : onlyBits m (b &&& m) = true := by
  rw [onlyBits_iff, BitVec.and_assoc, BitVec.and_self]

/-- What a row gives belongs to that row and is well-formed. -/
theorem decodeRow_sound {r : Row} {c : Code} {i : Instr} (h : decodeRow r c = .ok i) :
    r = i.row ∧ i.wellFormed = true := by
  have ok : ∀ {k j : Instr} (p : Prop) [Decidable p],
      (if p then Except.ok k else Except.error Reject.otherRow : Except Reject Instr) = .ok j → j = k := by
    intro k j p _ h
    split at h
    · exact (Except.ok.inj h).symm
    · cases h
  have no : ∀ {k : Instr}, (Except.error Reject.otherRow : Except Reject Instr) ≠ .ok k := fun h => by cases h
  have op : ∀ {k : Instr}, (Except.ok k : Except Reject Instr) = .ok i → i = k := fun h => (Except.ok.inj h).symm
  cases r <;> cases c <;> first | exact absurd h no | skip
  · rw [ok _ h]; exact ⟨rfl, rfl⟩
  · rw [op h]; exact ⟨rfl, rfl⟩
  · rw [op h]; exact ⟨rfl, rfl⟩
  · rw [op h]; exact ⟨rfl, rfl⟩
  · rw [op h]; exact ⟨rfl, onlyBits_masked _ _⟩
  · rw [op h]; exact ⟨rfl, onlyBits_masked _ _⟩
  · rw [op h]; exact ⟨rfl, onlyBits_masked _ _⟩
  · rw [op h]; exact ⟨rfl, Bool.and_eq_true_iff.2 ⟨onlyBits_masked _ _, onlyBits_masked _ _⟩⟩
  · rw [op h]; exact ⟨rfl, rfl⟩
  · rw [op h]; exact ⟨rfl, rfl⟩
  · rw [ok _ h]; exact ⟨rfl, rfl⟩
  · rw [ok _ h]; exact ⟨rfl, rfl⟩
  · rw [op h]; exact ⟨rfl, rfl⟩
  · rw [ok _ h]; exact ⟨rfl, rfl⟩

end Sys2Proof
end

