-- ==== Sys2Proof/Laws/HostPort.lean ====
section
/-! SUPPORT. What a host read can answer, said once: a result port, the `err` port, a block of a buffer; and
that the codes of `stage` and `err` tell their values apart. -/

namespace Sys2Proof.Machine

theorem State.done_iff (s : State) : s.done = true ↔ s.stage = .done := by simp [State.done]

theorem State.failed_iff (s : State) : s.failed = true ↔ s.stage = .fail := by simp [State.failed]

theorem State.srcReq_iff (s : State) : s.srcReq = true ↔ s.stage = .hdr ∨ s.stage = .prg ∨ s.stage = .chr := by
  simp [State.srcReq, or_assoc]

/-- Two stages with one code are one stage (30_encoding.md R87). -/
theorem Stage.code_inj {g h : Stage} : g.code = h.code ↔ g = h := by
  cases g <;> cases h <;> decide

/-- Two error kinds with one code are one (30_encoding.md R88). -/
theorem ErrKind.code_inj {e f : ErrKind} : e.code = f.code ↔ e = f := by
  cases e <;> cases f <;> decide

/-- A result port at DONE gives the register's value (10_state.md R34). -/
theorem State.atDone_of_done {α : Type} {s : State} (h : s.stage = .done) (v : α) : s.atDone (some v) = .ok v := by
  simp [State.atDone, s.done_iff.2 h]

/-- A result port in any other stage is refused (70_reset_and_hazards.md R201). -/
theorem State.atDone_of_not_done {α : Type} {s : State} (h : s.stage ≠ .done) (v : Option α) :
    s.atDone v = .error .hostReadUnspecified := by
  simp [State.atDone, s.done_iff, h]

/-- The `err` port at FAIL (10_state.md R34, R38). -/
theorem State.portErr_of_fail {s : State} (h : s.stage = .fail) : s.portErr = .ok s.err.code := by
  simp [State.portErr, s.failed_iff.2 h]

/-- The `err` port in any other stage (92_eei_decisions.md D15). -/
theorem State.portErr_of_not_fail {s : State} (h : s.stage ≠ .fail) : s.portErr = .error .hostReadUnspecified := by
  simp [State.portErr, s.failed_iff, h]

/-- What a result port gives is what the register holds. -/
theorem State.atDone_eq_ok {α : Type} {s : State} {v : Option α} {a : α} (h : s.atDone v = .ok a) :
    s.stage = .done ∧ v = some a := by
  unfold State.atDone at h
  split at h
  · next hd =>
    cases v with
    | none => cases h
    | some b => cases h; exact ⟨s.done_iff.1 hd, rfl⟩
  · cases h

/-- A block whose bytes are all written has a value, byte for byte (10_state.md R37). -/
theorem Memory.block_of_written (m : Memory) (n : Nat) (h : ∀ i, i < n → (m.read i).isSome = true) :
    ∃ l, m.block n = some l ∧ l.length = n ∧ ∀ i, i < n → l[i]? = m.read i := by
  induction n with
  | zero => exact ⟨[], rfl, rfl, fun i hi => absurd hi (Nat.not_lt_zero i)⟩
  | succ n ih =>
    obtain ⟨l, hl, hn, hget⟩ := ih fun i hi => h i (Nat.lt_succ_of_lt hi)
    obtain ⟨b, hb⟩ := Option.isSome_iff_exists.1 (h n (Nat.lt_succ_self n))
    refine ⟨l ++ [b], by simp [Memory.block, hl, hb], by simp [hn], fun i hi => ?_⟩
    rcases Nat.lt_succ_iff_lt_or_eq.1 hi with hi | rfl
    · rw [List.getElem?_append_left (by omega), hget i hi]
    · rw [List.getElem?_append_right (by omega), hb]; simp [hn]

end Sys2Proof.Machine
end

