-- ==== Sys2Proof/Laws/PerInstr.lean ====
section
/-! SUPPORT. Per operation: only its own row of the table decodes to it, from any code, and what decodes is
well-formed (30_encoding.md R82, R87, R98). -/

/-- Any row that gives `i` for some code is the row of `i`, and `i` is well-formed. -/
def Sys2Proof.Laws.OneRow.Statement (i : Sys2Proof.Instr) : Prop :=
  ∀ (r : Sys2Proof.Row) (c : Sys2Proof.Code), Sys2Proof.decodeRow r c = .ok i → r = i.row ∧ i.wellFormed = true

theorem Sys2Proof.Laws.OneRow.hdec : Sys2Proof.Laws.OneRow.Statement .hdec :=
  fun _ _ h => Sys2Proof.decodeRow_sound h

theorem Sys2Proof.Laws.OneRow.hdrTag (t0 t1 t2 t3 : Byte) : Sys2Proof.Laws.OneRow.Statement (.hdrTag t0 t1 t2 t3) :=
  fun _ _ h => Sys2Proof.decodeRow_sound h

theorem Sys2Proof.Laws.OneRow.hdrPrgsz (units : Byte) : Sys2Proof.Laws.OneRow.Statement (.hdrPrgsz units) :=
  fun _ _ h => Sys2Proof.decodeRow_sound h

theorem Sys2Proof.Laws.OneRow.hdrChrsz (units : Byte) : Sys2Proof.Laws.OneRow.Statement (.hdrChrsz units) :=
  fun _ _ h => Sys2Proof.decodeRow_sound h

theorem Sys2Proof.Laws.OneRow.hdrMirr (a : Byte) : Sys2Proof.Laws.OneRow.Statement (.hdrMirr a) :=
  fun _ _ h => Sys2Proof.decodeRow_sound h

theorem Sys2Proof.Laws.OneRow.hdrPers (a : Byte) : Sys2Proof.Laws.OneRow.Statement (.hdrPers a) :=
  fun _ _ h => Sys2Proof.decodeRow_sound h

theorem Sys2Proof.Laws.OneRow.hdrTrnr (a : Byte) : Sys2Proof.Laws.OneRow.Statement (.hdrTrnr a) :=
  fun _ _ h => Sys2Proof.decodeRow_sound h

theorem Sys2Proof.Laws.OneRow.hdrMapper (a b : Byte) : Sys2Proof.Laws.OneRow.Statement (.hdrMapper a b) :=
  fun _ _ h => Sys2Proof.decodeRow_sound h

theorem Sys2Proof.Laws.OneRow.hdrPrgram (units : Byte) : Sys2Proof.Laws.OneRow.Statement (.hdrPrgram units) :=
  fun _ _ h => Sys2Proof.decodeRow_sound h

theorem Sys2Proof.Laws.OneRow.hdrPad : Sys2Proof.Laws.OneRow.Statement .hdrPad :=
  fun _ _ h => Sys2Proof.decodeRow_sound h

theorem Sys2Proof.Laws.OneRow.rdprg : Sys2Proof.Laws.OneRow.Statement .rdprg :=
  fun _ _ h => Sys2Proof.decodeRow_sound h

theorem Sys2Proof.Laws.OneRow.rdchr : Sys2Proof.Laws.OneRow.Statement .rdchr :=
  fun _ _ h => Sys2Proof.decodeRow_sound h

theorem Sys2Proof.Laws.OneRow.decode : Sys2Proof.Laws.OneRow.Statement .decode :=
  fun _ _ h => Sys2Proof.decodeRow_sound h

theorem Sys2Proof.Laws.OneRow.reset : Sys2Proof.Laws.OneRow.Statement .reset :=
  fun _ _ h => Sys2Proof.decodeRow_sound h
end

