-- ==== Sys2Proof/Laws/Stream.lean ====
section
/-! SUPPORT. The whole-stream function case by case, in numbers (42_image_assembler.md R145). -/

namespace Sys2Proof.Machine

theorem decodeStream_unreadable (bytes : List Byte) :
    decodeStream false bytes = ⟨.error .unreadableSource, 0, 1⟩ := by
  simp [decodeStream]

theorem decodeStream_shortHeader {bytes : List Byte} (h : bytes.length < 16) :
    decodeStream true bytes = ⟨.error .truncatedHeader, bytes.length, bytes.length + 1⟩ := by
  have h' : bytes.length < Config.headerBytes := h
  simp [decodeStream, h']

theorem decodeStream_shortPrg {bytes : List Byte} (h16 : 16 ≤ bytes.length)
    (h : bytes.length < 16 + (decodeHeader (firstNine bytes)).prgRomSize.toNat) :
    decodeStream true bytes = ⟨.error .truncatedRegionPrg, bytes.length, bytes.length + 1⟩ := by
  have h1 : ¬ bytes.length < Config.headerBytes := by simp only [Config.headerBytes]; omega
  have h2 : (decodeHeader (firstNine bytes)).prgRomSize.toNat > 0 ∧
      bytes.length < Config.headerBytes + Config.trainerSkipBytes +
        (decodeHeader (firstNine bytes)).prgRomSize.toNat := by
    simp only [Config.headerBytes, Config.trainerSkipBytes]; omega
  simp only [decodeStream, h1, h2]
  rfl

theorem decodeStream_shortChr {bytes : List Byte}
    (h16 : 16 + (decodeHeader (firstNine bytes)).prgRomSize.toNat ≤ bytes.length)
    (h : bytes.length < 16 + (decodeHeader (firstNine bytes)).prgRomSize.toNat +
      (decodeHeader (firstNine bytes)).chrRomSize.toNat * 0x2000) :
    decodeStream true bytes = ⟨.error .truncatedRegionChr, bytes.length, bytes.length + 1⟩ := by
  have h1 : ¬ bytes.length < Config.headerBytes := by simp only [Config.headerBytes]; omega
  have h2 : ¬ ((decodeHeader (firstNine bytes)).prgRomSize.toNat > 0 ∧
      bytes.length < Config.headerBytes + Config.trainerSkipBytes +
        (decodeHeader (firstNine bytes)).prgRomSize.toNat) := by
    simp only [Config.headerBytes, Config.trainerSkipBytes]; omega
  have h3 : (decodeHeader (firstNine bytes)).chrRomSize.toNat * Config.chrUnit > 0 ∧
      bytes.length < Config.headerBytes + Config.trainerSkipBytes +
        (decodeHeader (firstNine bytes)).prgRomSize.toNat +
        (decodeHeader (firstNine bytes)).chrRomSize.toNat * Config.chrUnit := by
    simp only [Config.headerBytes, Config.trainerSkipBytes, Config.chrUnit]; omega
  simp only [decodeStream, h1, h2, h3]
  rfl

theorem decodeStream_whole {bytes : List Byte}
    (h : 16 + (decodeHeader (firstNine bytes)).prgRomSize.toNat +
      (decodeHeader (firstNine bytes)).chrRomSize.toNat * 0x2000 ≤ bytes.length) :
    decodeStream true bytes =
      ⟨.ok ⟨decodeHeader (firstNine bytes),
          if 0 < (decodeHeader (firstNine bytes)).prgRomSize.toNat then
            some ((bytes.drop 16).take (decodeHeader (firstNine bytes)).prgRomSize.toNat) else none,
          if 0 < (decodeHeader (firstNine bytes)).chrRomSize.toNat * 0x2000 then
            some ((bytes.drop (16 + (decodeHeader (firstNine bytes)).prgRomSize.toNat)).take
              ((decodeHeader (firstNine bytes)).chrRomSize.toNat * 0x2000)) else none⟩,
        16 + (decodeHeader (firstNine bytes)).prgRomSize.toNat +
          (decodeHeader (firstNine bytes)).chrRomSize.toNat * 0x2000,
        16 + (decodeHeader (firstNine bytes)).prgRomSize.toNat +
          (decodeHeader (firstNine bytes)).chrRomSize.toNat * 0x2000⟩ := by
  have h1 : ¬ bytes.length < Config.headerBytes := by simp only [Config.headerBytes]; omega
  have h2 : ¬ ((decodeHeader (firstNine bytes)).prgRomSize.toNat > 0 ∧
      bytes.length < Config.headerBytes + Config.trainerSkipBytes +
        (decodeHeader (firstNine bytes)).prgRomSize.toNat) := by
    simp only [Config.headerBytes, Config.trainerSkipBytes]; omega
  have h3 : ¬ ((decodeHeader (firstNine bytes)).chrRomSize.toNat * Config.chrUnit > 0 ∧
      bytes.length < Config.headerBytes + Config.trainerSkipBytes +
        (decodeHeader (firstNine bytes)).prgRomSize.toNat +
        (decodeHeader (firstNine bytes)).chrRomSize.toNat * Config.chrUnit) := by
    simp only [Config.headerBytes, Config.trainerSkipBytes, Config.chrUnit]; omega
  simp only [decodeStream, h1, h2, h3]
  rfl

/-- A source that never becomes unreadable. -/
theorem decodeSource_none {src : Source} (h : src.failAt = none) :
    decodeSource src = decodeStream src.readable src.bytes := by
  simp [decodeSource, h]

/-- A source that becomes unreadable at an offset the run asks for (42_image_assembler.md R146). -/
theorem decodeSource_hit {src : Source} {u : Nat} (h : src.failAt = some u) (hr : src.readable = true)
    (hu : u < (decodeStream true src.bytes).beats) : decodeSource src = ⟨.error .unreadableSource, u, u + 1⟩ := by
  simp [decodeSource, h, hr, hu]

/-- A source that becomes unreadable at an offset the run never asks for. -/
theorem decodeSource_miss {src : Source} {u : Nat} (h : src.failAt = some u)
    (hu : (decodeStream src.readable src.bytes).beats ≤ u) :
    decodeSource src = decodeStream src.readable src.bytes := by
  simp only [decodeSource, h]
  exact if_neg (by omega)

/-- A source that is never readable. -/
theorem decodeSource_unreadable {src : Source} (h : src.readable = false) :
    decodeSource src = ⟨.error .unreadableSource, 0, 1⟩ := by
  cases hf : src.failAt <;> simp [decodeSource, hf, h, decodeStream_unreadable]

/-- The record of a stream's first nine bytes does not see what follows them. -/
theorem firstNine_append {bs : List Byte} (r : List Byte) (h : 9 ≤ bs.length) : firstNine (bs ++ r) = firstNine bs := by
  unfold firstNine
  congr 1
  funext k
  have hk : k.val < bs.length := by omega
  simp [List.getD_eq_getElem?_getD, List.getElem?_append_left hk]

end Sys2Proof.Machine
end

