-- ==== Sys2Proof/Laws/Values.lean ====
section
/-! SUPPORT. What the value functions of the field decoders come to as numbers. -/

namespace Sys2Proof.Machine

/-- No multiplication of the Header Decoder overflows (40_header_decoder.md R121). -/
theorem prgszValue_toNat (u : Byte) : (prgszValue u).toNat = u.toNat * 0x4000 := by
  have := u.isLt
  simp only [prgszValue, Config.prgUnit, BitVec.toNat_ofNat]
  omega

theorem chrBytes_toNat (u : BitVec 8) : (chrBytes u).toNat = u.toNat * 0x2000 := by
  have := u.isLt
  simp only [chrBytes, Config.chrUnit, BitVec.toNat_ofNat]
  omega

theorem prgPresent_iff (p : BitVec 22) : prgPresent p = true ↔ 0 < p.toNat := by
  simp [prgPresent, BitVec.lt_def]

theorem chrPresent_iff (c : BitVec 8) : chrPresent c = true ↔ 0 < c.toNat := by
  simp [chrPresent, BitVec.lt_def]

/-- The flag tests read only the bits their table rows name. -/
theorem mirrValue_masked (t : FlagTest) (a : Byte) : mirrValue t (a &&& 0x09#8) = mirrValue t a := by
  cases t <;> revert a <;> decide

theorem persValue_masked (a : Byte) : persValue (a &&& 0x02#8) = persValue a := by
  revert a; decide

theorem trnrValue_masked (t : FlagTest) (a : Byte) : trnrValue t (a &&& 0x04#8) = trnrValue t a := by
  cases t <;> revert a <;> decide

theorem mapperValue_masked (a b : Byte) : mapperValue (a &&& 0xF0#8) (b &&& 0xF0#8) = mapperValue a b := by
  have h : ∀ a : Byte, (a &&& 0xF0#8) >>> 4 = a >>> 4 := by decide
  simp [mapperValue, h, BitVec.and_assoc]

end Sys2Proof.Machine
end

