-- ==== Sys2Proof/Tests/Slice0.lean ====
section
/-! SUPPORT. Tests with expected values taken from spec/ (95_test_vectors.md where an id such as P2 or a section is
named), and a witness for the hypotheses of every statement that has some. -/

namespace Sys2Proof.Tests

open Sys2Proof Sys2Proof.Machine Sys2Proof.Safety

/-! ### Small states -/

/-- The header of P2. -/
def p2Header : List Byte :=
  [0x4E#8, 0x45#8, 0x53#8, 0x1A#8, 0x00#8, 0x00#8, 0x4B#8, 0xA7#8, 0x05#8, 0x11#8, 0x22#8, 0x33#8, 0x44#8, 0x55#8,
    0x66#8, 0x77#8]

/-- `HDR(p, c, A, 0, 0)` (30_encoding.md R97). -/
def hdr (p c a : Byte) : List Byte :=
  [0x4E#8, 0x45#8, 0x53#8, 0x1A#8, p, c, a, 0#8, 0#8, 0#8, 0#8, 0#8, 0#8, 0#8, 0#8, 0#8]

/-- Inside the header, `bs` accepted so far, `p` on the ports. -/
def hdrState (bs : List Byte) (p : Pins) : State :=
  { State.reset with
    pc := BitVec.ofNat 23 bs.length
    hbuf := Vector.ofFn fun k => bs[k.val]?
    pins := p }

/-- A buffer holding `b` at the addresses below n. -/
def filled (b : Byte) : Nat → Memory
  | 0 => []
  | n + 1 => (filled b n).write n b

/-- After the header `h`, with n program-code bytes 07 and k graphics bytes 09 accepted. -/
def regionState (g : Stage) (e : ErrKind) (h : List Byte) (n k : Nat) (p : Pins) : State :=
  { State.reset with
    stage := g
    err := e
    pc := BitVec.ofNat 23 (16 + n + k)
    hbuf := Vector.ofFn fun i => h[i.val]?
    x := (decodeHeader (firstNine h)).regs
    prgLen := BitVec.ofNat 22 n
    chrLen := BitVec.ofNat 21 k
    prg := filled 7#8 n
    chr := filled 9#8 k
    pins := p }

/-- The bytes accepted in `regionState`. -/
def regionBytes (h : List Byte) (n k : Nat) : List Byte := h ++ List.replicate n 7#8 ++ List.replicate k 9#8

/-- The next state, if that is the answer. -/
def nextOf : Result → Option State
  | .next t => some t
  | .fault _ => none
  | .refused _ => none

/-- A state in stage PRG or CHR one byte short of both regions of `hdr 1 1 0` (section 2.7), buffers left empty. -/
def lastPrg (p : Pins) : State :=
  { regionState .prg .none (hdr 1#8 1#8 0#8) 0 0 p with pc := 0x400F#23, prgLen := 0x3FFF#22 }

def lastChr (p : Pins) : State :=
  { regionState .chr .none (hdr 1#8 1#8 0#8) 0 0 p with pc := 0x600F#23, prgLen := 0x4000#22, chrLen := 0x1FFF#21 }

/-! ### Well-formedness: each check refuses a term -/

theorem test_wf_mirr : (Instr.hdrMirr 0x0B#8).wellFormed = false := by decide

theorem test_wf_pers : (Instr.hdrPers 0x03#8).wellFormed = false := by decide

theorem test_wf_trnr : (Instr.hdrTrnr 0x0C#8).wellFormed = false := by decide

theorem test_wf_mapper_a : (Instr.hdrMapper 0x4B#8 0xA0#8).wellFormed = false := by decide

theorem test_wf_mapper_b : (Instr.hdrMapper 0x40#8 0xA7#8).wellFormed = false := by decide

/-! ### Decoding written-out words (30_encoding.md R81, R82, R87; the headers of S1 and P2) -/

theorem test_decode_hdec : decodeTableWord 3 0b000 = some .hdec := by decide

theorem test_decode_rdprg : decodeTableWord 3 0b001 = some .rdprg := by decide

theorem test_decode_rdchr : decodeTableWord 3 0b010 = some .rdchr := by decide

theorem test_decode_reset : decodeTableWord 1 1 = some .reset := by decide

theorem test_decode_decode : decodeTableWord 0 0 = some .decode := by decide

theorem test_decode_terminal : decode (.stage3 0b011#3) = .error .terminalStage := rfl

theorem test_decode_no_stage : decode (.stage3 0b101#3) = .error .notAStage := rfl

theorem test_header_word : headerWord p2Header = 0x7766554433221105A74B00001A53454E#128 := by decide

theorem test_decode_tag :
    decodeRow .hdrTag (.hdr16 0x7766554433221105A74B00001A53454E#128) =
      .ok (.hdrTag 0x4E#8 0x45#8 0x53#8 0x1A#8) := rfl

theorem test_decode_prgsz :
    decodeRow .hdrPrgsz (.hdr16 0x0000000000000000000101021A53454E#128) = .ok (.hdrPrgsz 0x02#8) := rfl

theorem test_decode_chrsz :
    decodeRow .hdrChrsz (.hdr16 0x0000000000000000000101021A53454E#128) = .ok (.hdrChrsz 0x01#8) := rfl

theorem test_decode_mirr :
    decodeRow .hdrMirr (.hdr16 0x7766554433221105A74B00001A53454E#128) = .ok (.hdrMirr 0x09#8) := rfl

theorem test_decode_pers :
    decodeRow .hdrPers (.hdr16 0x7766554433221105A74B00001A53454E#128) = .ok (.hdrPers 0x02#8) := rfl

theorem test_decode_trnr :
    decodeRow .hdrTrnr (.hdr16 0x7766554433221105A74B00001A53454E#128) = .ok (.hdrTrnr 0x00#8) := rfl

theorem test_decode_mapper :
    decodeRow .hdrMapper (.hdr16 0x7766554433221105A74B00001A53454E#128) = .ok (.hdrMapper 0x40#8 0xA0#8) := rfl

theorem test_decode_prgram :
    decodeRow .hdrPrgram (.hdr16 0x7766554433221105A74B00001A53454E#128) = .ok (.hdrPrgram 0x05#8) := rfl

theorem test_decode_pad : decodeRow .hdrPad (.hdr16 0x7766554433221105A74B00001A53454E#128) = .ok .hdrPad := rfl

/-! ### The operations -/

/-- P2, beat 9. -/
theorem test_hdec_keeps :
    (nextOf (exec .hdec (hdrState (p2Header.take 8) (Pins.byte 0x05#8)))).map (fun t => (t.pc, t.hbuf.get 8)) =
      some (9#23, some 0x05#8) := by decide

/-- P2, beat 16. -/
theorem test_hdec_last :
    (nextOf (exec .hdec (hdrState (p2Header.take 15) (Pins.byte 0x77#8)))).map (fun t => (t.stage, t.pc, t.x)) =
      some (.done, 16#23, HeaderRecord.regs ⟨0x1A53454E#32, 0#22, 0#8, 5#8, .unspecified, true, false, 164#8⟩) := by
  decide

/-- Section 2.1: no reordering. -/
theorem test_tag :
    (nextOf (exec (.hdrTag 0x1A#8 0x53#8 0x45#8 0x4E#8) State.reset)).map (·.x.formatTag) =
      some (some 0x4E45531A#32) := by decide

/-- Section 2.2: 0x80 is unsigned. -/
theorem test_prgsz :
    (nextOf (exec (.hdrPrgsz 0x80#8) State.reset)).map (·.x.prgRomSize) = some (some 0x200000#22) := by decide

theorem test_prgsz_max :
    (nextOf (exec (.hdrPrgsz 0xFF#8) State.reset)).map (·.x.prgRomSize) = some (some 0x3FC000#22) := by decide

/-- Section 2.2: a unit count, not multiplied. -/
theorem test_chrsz :
    (nextOf (exec (.hdrChrsz 0xFF#8) State.reset)).map (·.x.chrRomSize) = some (some 255#8) ∧
      chrBytes 255#8 = 0x1FE000#21 := by decide

/-- Section 2.3, A = 0x08 and 0x4B. -/
theorem test_mirr :
    (nextOf (exec (.hdrMirr 0x08#8) State.reset)).map (·.x.mirroring) = some (some .unspecified) := by decide

theorem test_mirr_reference :
    mirrValue .reference 0x08#8 = .horizontal ∧ mirrValue .reference 0x4B#8 = .vertical := by decide

/-- Section 2.3, A = 0x02 and 0x0C. -/
theorem test_pers :
    (nextOf (exec (.hdrPers 0x02#8) State.reset)).map (·.x.hasPersistentStorage) = some (some true) := by decide

theorem test_trnr :
    (nextOf (exec (.hdrTrnr 0x04#8) State.reset)).map (·.x.hasTrainer) = some (some true) := by decide

theorem test_trnr_reference : trnrValue .reference 0x04#8 = false ∧ trnrValue .reference 0xFF#8 = false := by decide

/-- Section 2.4: 4B A7 and FF FF. -/
theorem test_mapper :
    (nextOf (exec (.hdrMapper 0x40#8 0xA0#8) State.reset)).map (·.x.mapperNumber) = some (some 164#8) := by decide

theorem test_mapper_all_ones : mapperValue 0xFF#8 0xFF#8 = 255#8 ∧ mapperValue 0x0F#8 0x0F#8 = 0#8 := by decide

/-- Section 2.2. -/
theorem test_prgram :
    (nextOf (exec (.hdrPrgram 0xFF#8) State.reset)).map (·.x.prgRamSize) = some (some 255#8) := by decide

/-- P2, beat 10. -/
theorem test_pad :
    (nextOf (exec .hdrPad (hdrState (p2Header.take 9) (Pins.byte 0x11#8)))).map (fun t => (t.pc, t.hbuf.get 8, t.x)) =
      some (10#23, some 0x05#8, HeaderRegs.unwritten) := by decide

/-- Section 2.7: the last program-code byte, with a graphics region to follow. -/
theorem test_rdprg_last :
    (nextOf (exec .rdprg (lastPrg (Pins.byte 0x55#8)))).map (fun t => (t.stage, t.pc, t.prgLen, t.prg.read 0x3FFF)) =
      some (.chr, 0x4010#23, 0x4000#22, some 0x55#8) := by decide

/-- Section 2.7: 0x3FFF bytes, then EOS. -/
theorem test_rdprg_eos :
    (nextOf (exec .rdprg (lastPrg (Answer.pins .eos)))).map (fun t => (t.stage, t.err, t.pc, t.prgLen)) =
      some (.fail, .truncatedRegionPrg, 0x400F#23, 0x3FFF#22) := by decide

/-- Section 2.7: the last graphics byte. -/
theorem test_rdchr_last :
    (nextOf (exec .rdchr (lastChr (Pins.byte 0x55#8)))).map (fun t => (t.stage, t.pc, t.chrLen, t.chr.read 0x1FFF)) =
      some (.done, 0x6010#23, 0x2000#21, some 0x55#8) := by decide

/-- Section 2.7: 0x1FFF graphics bytes, then EOS. -/
theorem test_rdchr_eos :
    (nextOf (exec .rdchr (lastChr (Answer.pins .eos)))).map (fun t => (t.stage, t.err, t.pc, t.chrLen)) =
      some (.fail, .truncatedRegionChr, 0x600F#23, 0x1FFF#21) := by decide

/-- P4 (scenario S5). -/
theorem test_decode_short_header :
    (nextOf (exec .decode (State.reset.connect (.canonical true ((hdr 2#8 1#8 1#8).take 10))))).map
        (fun t => (t.obs, t.pc)) =
      some (some (.error .truncatedHeader), 10#23) := by decide

/-- P2, with its trailing bytes. -/
theorem test_decode_header_only :
    (nextOf (exec .decode (State.reset.connect (.canonical true (p2Header ++ [0xDE#8, 0xAD#8, 0xBE#8]))))).map
        (fun t => (t.obs, t.pc)) =
      some (some (.ok ⟨⟨0x1A53454E#32, 0#22, 0#8, 5#8, .unspecified, true, false, 164#8⟩, none, none⟩), 16#23) := by
  decide

/-- Section 2.9: reset in stage PRG. -/
theorem test_reset :
    (nextOf (exec .reset { lastPrg Pins.idle with pc := 0x1234#23 })).map
        (fun t => (t.stage, t.pc, t.err, t.prgLen, t.x)) =
      some (.hdr, 0#23, .none, 0#22, HeaderRegs.unwritten) := by decide

/-! ### One step, from a word placed at reset -/

theorem test_step_hdec :
    (nextOf (step (State.reset.withFetchWord 3 0))).map (fun t => (t.pc, t.hbuf.get 0)) = some (1#23, some 0#8) := by
  decide

theorem test_step_header :
    (nextOf (step (State.reset.withFetchWord 128 0x7766554433221105A74B00001A53454E))).map (fun t => (t.stage, t.x)) =
      some (.done, HeaderRecord.regs ⟨0x1A53454E#32, 0#22, 0#8, 5#8, .unspecified, true, false, 164#8⟩) := by decide

theorem test_step_rdprg :
    (nextOf (step (State.reset.withFetchWord 3 1))).map (fun t => (t.stage, t.pc, t.prgLen, t.prg)) =
      some (.prg, 17#23, 1#22, [(0, 0#8)]) := by decide

theorem test_step_rdchr :
    (nextOf (step (State.reset.withFetchWord 3 2))).map (fun t => (t.stage, t.pc, t.chrLen, t.chr)) =
      some (.chr, 17#23, 1#21, [(0, 0#8)]) := by decide

theorem test_step_reset :
    (nextOf (step ((lastPrg (Pins.byte 0x55#8)).withFetchWord 1 1))).map (fun t => (t.stage, t.pc, t.prgLen)) =
      some (.hdr, 0#23, 0#22) := by decide

/-- Section 2.9: an answer presented in FAIL is ignored. -/
theorem test_step_terminal :
    (nextOf (step (regionState .fail .truncatedRegionPrg (hdr 1#8 0#8 0#8) 0 0 (Pins.byte 0x55#8)))).map
        (fun t => (t.stage, t.err, t.pc)) =
      some (.fail, .truncatedRegionPrg, 16#23) := by decide

/-- 93_implementation_defined.md U4: `src_kind` = 3 is no answer. -/
theorem test_step_not_an_answer :
    step (hdrState [] ⟨false, true, 3#2, 0#8⟩) = .refused .notAnAnswer := rfl

/-! ### The states meet the invariants where the spec says runs reach them -/

theorem filled_writtenBelow (b : Byte) (n : Nat) : WrittenBelow (filled b n) n := by
  induction n with
  | zero => exact ⟨rfl, fun a => by simp [filled]⟩
  | succ n ih =>
    refine ⟨Memory.wf_write _ _ _ ih.1, fun a => ?_⟩
    rw [filled, Memory.read_write]
    split
    · simp; omega
    · rw [ih.2 a]; omega

theorem filled_read (b : Byte) (n a : Nat) (h : a < n) : (filled b n).read a = some b := by
  induction n with
  | zero => omega
  | succ n ih =>
    rw [filled, Memory.read_write]
    split
    · rfl
    · exact ih (by omega)

/-- Stage HDR. -/
theorem hdrState_inv (bs : List Byte) (p : Pins) (h : bs.length ≤ 15) : Inv bs (hdrState bs p) := by
  have hpc : (hdrState bs p).pc.toNat = bs.length := by
    show (BitVec.ofNat 23 bs.length).toNat = bs.length
    rw [BitVec.toNat_ofNat]; omega
  have hs : (hdrState bs p).stage = .hdr := rfl
  have he : (hdrState bs p).err = .none := rfl
  have hw : WrittenBelow [] 0 := ⟨rfl, fun a => by simp⟩
  have hb : ∀ k : Fin 9, (hdrState bs p).hbuf.get k = bs[k.val]? := fun k => by
    simp [hdrState, Vector.get_eq_getElem]
  constructor <;> first
    | exact hpc
    | exact hw
    | exact fun _ => ⟨by omega, rfl, rfl, rfl, hb⟩
    | exact fun _ => rfl
    | simp [hs, he]
    | (rw [hpc]; simp only [Config.pcMax]; omega)
    | (intro h'; omega)
    | (intro i hi; exact absurd hi (Nat.not_lt_zero i))

/-- After the header `h`, for the stages and errors a run has with these counts. -/
theorem regionState_inv {g : Stage} {e : ErrKind} {h : List Byte} {n k : Nat} (p : Pins) (hl : h.length = 16)
    (hf : g = .fail ↔ e ≠ .none) (hg : g ≠ .hdr) (he : e ≠ .truncatedHeader)
    (hn : n ≤ (decodeHeader (firstNine h)).prgRomSize.toNat)
    (hk : k ≤ (decodeHeader (firstNine h)).chrRomSize.toNat * 0x2000)
    (hprg : g = .prg ∨ e = .truncatedRegionPrg → n < (decodeHeader (firstNine h)).prgRomSize.toNat ∧ k = 0)
    (hchr : g = .chr ∨ e = .truncatedRegionChr →
      n = (decodeHeader (firstNine h)).prgRomSize.toNat ∧ k < (decodeHeader (firstNine h)).chrRomSize.toNat * 0x2000)
    (hdone : g = .done →
      n = (decodeHeader (firstNine h)).prgRomSize.toNat ∧ k = (decodeHeader (firstNine h)).chrRomSize.toNat * 0x2000)
    (hzero : k = 0 ∨ n = (decodeHeader (firstNine h)).prgRomSize.toNat)
    (hfail : g = .fail → 16 + n + k < Config.pcMax) :
    Inv (regionBytes h n k) (regionState g e h n k p) := by
  have hfn : firstNine (regionBytes h n k) = firstNine h := by
    rw [regionBytes, List.append_assoc]; exact firstNine_append _ (by omega)
  have hP : (decodeHeader (firstNine h)).prgRomSize.toNat = (firstNine h)[4].toNat * 0x4000 := prgszValue_toNat _
  have h4 := (firstNine h)[4].isLt
  have h5 := (decodeHeader (firstNine h)).chrRomSize.isLt
  have hlen : (regionBytes h n k).length = 16 + n + k := by
    simp [regionBytes, hl]; omega
  have hpl : (regionState g e h n k p).prgLen.toNat = n := by
    show (BitVec.ofNat 22 n).toNat = n
    rw [BitVec.toNat_ofNat]; omega
  have hcl : (regionState g e h n k p).chrLen.toNat = k := by
    show (BitVec.ofNat 21 k).toNat = k
    rw [BitVec.toNat_ofNat]; omega
  have hpc : (regionState g e h n k p).pc.toNat = 16 + n + k := by
    show (BitVec.ofNat 23 (16 + n + k)).toNat = _
    rw [BitVec.toNat_ofNat]; omega
  have hs : (regionState g e h n k p).stage = g := rfl
  have her : (regionState g e h n k p).err = e := rfl
  have hx1 : (regionState g e h n k p).x.prgRomSize = some (decodeHeader (firstNine h)).prgRomSize := rfl
  have hx2 : (regionState g e h n k p).x.chrRomSize = some (decodeHeader (firstNine h)).chrRomSize := rfl
  have hget : ∀ i, i < n → (regionBytes h n k)[16 + i]? = some 7#8 := fun i hi => by
    rw [regionBytes, List.append_assoc, List.getElem?_append_right (by omega),
      List.getElem?_append_left (by simp; omega)]
    simp [hl, hi]
  have hget2 : ∀ j, j < k → (regionBytes h n k)[16 + n + j]? = some 9#8 := fun j hj => by
    rw [regionBytes, List.getElem?_append_right (by simp [hl]), List.getElem?_replicate]
    exact if_pos (by simp [hl, hj])
  refine ⟨?_, ?_, ?_, ?_, ?_, ?_, ?_, ?_, ?_, ?_, ?_, ?_, ?_, ?_, ?_, ?_, ?_, ?_⟩
  · rw [hpc, hlen]
  · rw [hpc]; simp only [Config.pcMax]; omega
  · rw [hs, her]; exact hf
  · rw [hpl]; exact filled_writtenBelow _ _
  · rw [hcl]; exact filled_writtenBelow _ _
  · intro h'; exact absurd h' hg
  · intro _; omega
  · intro h'; omega
  · intro _; exact ⟨by rw [hfn]; rfl, by rw [hpc, hpl, hcl]⟩
  · intro h' m hm
    cases hx1.symm.trans hm
    have := hprg (.inl h')
    exact ⟨by rw [BitVec.lt_def, hpl]; exact this.1, BitVec.eq_of_toNat_eq (by rw [hcl]; simpa using this.2)⟩
  · intro h' m u hm hu
    cases hx1.symm.trans hm
    cases hx2.symm.trans hu
    have := hchr (.inl h')
    exact ⟨BitVec.eq_of_toNat_eq (by rw [hpl]; exact this.1),
      by rw [BitVec.lt_def, hcl, chrBytes_toNat]; exact this.2⟩
  · intro h' m u hm hu
    cases hx1.symm.trans hm
    cases hx2.symm.trans hu
    have := hdone h'
    exact ⟨BitVec.eq_of_toNat_eq (by rw [hpl]; exact this.1),
      BitVec.eq_of_toNat_eq (by rw [hcl, chrBytes_toNat]; exact this.2)⟩
  · intro h'; rw [hpc]; exact hfail h'
  · intro h'; exact absurd h' he
  · intro h'
    have := hprg (.inr h')
    exact ⟨_, hx1, by rw [BitVec.lt_def, hpl]; exact this.1, by rw [hpc, hpl]; omega⟩
  · intro h'
    have := hchr (.inr h')
    refine ⟨_, _, hx1, hx2, ?_, BitVec.eq_of_toNat_eq (by rw [hpl]; exact this.1), ?_, by rw [hpc, hpl, hcl]⟩
    · rw [BitVec.lt_def]; simp; omega
    · rw [BitVec.lt_def, hcl, chrBytes_toNat]; exact this.2
  · intro i hi
    rw [hpl] at hi
    rw [hget i hi]; exact filled_read _ _ _ hi
  · intro j hj m hm
    cases hx1.symm.trans hm
    rw [hcl] at hj
    have : n = (decodeHeader (firstNine h)).prgRomSize.toNat := by omega
    rw [← this, hget2 j hj]; exact filled_read _ _ _ hj

/-- A header that asks for one unit of each region. -/
def h11 : List Byte := hdr 1#8 1#8 0#8

theorem h11_sizes :
    (decodeHeader (firstNine h11)).prgRomSize = 0x4000#22 ∧ (decodeHeader (firstNine h11)).chrRomSize = 1#8 := by
  decide

/-- Stages PRG at its first and last byte, CHR at its first and last, DONE, and FAIL in each region. -/
theorem h11_inv (p : Pins) :
    Inv (regionBytes h11 0 0) (regionState .prg .none h11 0 0 p) ∧
    Inv (regionBytes h11 0x3FFF 0) (regionState .prg .none h11 0x3FFF 0 p) ∧
    Inv (regionBytes h11 0x4000 0) (regionState .chr .none h11 0x4000 0 p) ∧
    Inv (regionBytes h11 0x4000 0x1FFF) (regionState .chr .none h11 0x4000 0x1FFF p) ∧
    Inv (regionBytes h11 0x4000 0x2000) (regionState .done .none h11 0x4000 0x2000 p) ∧
    Inv (regionBytes h11 0x3FFF 0) (regionState .fail .truncatedRegionPrg h11 0x3FFF 0 p) ∧
    Inv (regionBytes h11 0x4000 0x1FFF) (regionState .fail .truncatedRegionChr h11 0x4000 0x1FFF p) := by
  have key : ∀ g e n k, (g = .fail ↔ e ≠ .none) → g ≠ .hdr → e ≠ .truncatedHeader → n ≤ 0x4000 → k ≤ 0x2000 →
      (g = .prg ∨ e = .truncatedRegionPrg → n < 0x4000 ∧ k = 0) →
      (g = .chr ∨ e = .truncatedRegionChr → n = 0x4000 ∧ k < 0x2000) →
      (g = .done → n = 0x4000 ∧ k = 0x2000) → (k = 0 ∨ n = 0x4000) →
      Inv (regionBytes h11 n k) (regionState g e h11 n k p) := by
    intro g e n k h1 h2 h3 h4 h5 h6 h7 h8 h9
    exact regionState_inv p rfl h1 h2 h3 (by rw [h11_sizes.1]; exact h4) (by rw [h11_sizes.2]; exact h5)
      (by rw [h11_sizes.1]; exact h6) (by rw [h11_sizes.1, h11_sizes.2]; exact h7)
      (by rw [h11_sizes.1, h11_sizes.2]; exact h8) (by rw [h11_sizes.1]; exact h9)
      (fun _ => by simp only [Config.pcMax]; omega)
  refine ⟨?_, ?_, ?_, ?_, ?_, ?_, ?_⟩ <;> apply key <;> simp

/-! ### Witnesses: states and operands that meet the hypotheses of the statements, clause by clause -/

/-- `rst` high. -/
def rstPins : Pins := ⟨true, false, 0#2, 0#8⟩

/-- The three answers and no answer. -/
def byte55 : Pins := Pins.byte 0x55#8

def eosPins : Pins := Answer.pins .eos

def unreadablePins : Pins := Answer.pins .unreadable

theorem witness_ResetRestoresTheResetState : (lastPrg rstPins).pins.rst = true := rfl

theorem witness_NothingSurvivesReset :
    (lastPrg rstPins).pins.rst = true ∧ (hdrState [] rstPins).pins = (lastPrg rstPins).pins ∧
      (hdrState [] rstPins).feed = (lastPrg rstPins).feed ∧ ∃ t, runsTo (0 + 1) (lastPrg rstPins) t :=
  ⟨rfl, rfl, rfl, _, rfl⟩

theorem witness_StepRunsTheDecodedOperation :
    decode (hdrState [] byte55).fetchCode = .ok .hdec ∧ decode (lastPrg byte55).fetchCode = .ok .rdprg ∧
      decode (lastChr byte55).fetchCode = .ok .rdchr ∧ decode (lastChr rstPins).fetchCode = .ok .reset :=
  ⟨rfl, rfl, rfl, rfl⟩

/-- A DONE and a FAIL state, an answer presented. -/
def doneState : State := regionState .done .none h11 0x4000 0x2000 byte55

def failState : State := regionState .fail .truncatedRegionPrg h11 0x3FFF 0 byte55

theorem witness_TerminalStagesTakeNoStep :
    doneState.stage = .done ∧ doneState.pins.rst = false ∧ failState.stage = .fail ∧ failState.pins.rst = false :=
  ⟨rfl, rfl, rfl, rfl⟩

theorem witness_OnlyResetLeavesATerminalStage :
    NoReset doneState ∧ NoReset failState ∧
      (regionState .fail .truncatedRegionPrg h11 0x3FFF 0 rstPins).pins.rst = true := by
  refine ⟨fun p hp => ?_, fun p hp => ?_, rfl⟩ <;>
    · rw [List.mem_singleton.1 hp]; rfl

theorem witness_NoAnswerHoldsTheState :
    (lastPrg Pins.idle).pins.rst = false ∧ (lastPrg Pins.idle).pins.srcAck = false := ⟨rfl, rfl⟩

theorem answering_byte55 :
    (∀ bs, Answering (hdrState bs byte55) (.byte 0x55#8)) ∧ Answering (lastPrg byte55) (.byte 0x55#8) ∧
      Answering (lastChr byte55) (.byte 0x55#8) := ⟨fun _ => ⟨rfl, rfl⟩, ⟨rfl, rfl⟩, ⟨rfl, rfl⟩⟩

theorem answering_eos :
    (∀ bs, Answering (hdrState bs eosPins) .eos) ∧ Answering (lastPrg eosPins) .eos ∧
      Answering (lastChr eosPins) .eos := ⟨fun _ => ⟨rfl, rfl⟩, ⟨rfl, rfl⟩, ⟨rfl, rfl⟩⟩

theorem answering_unreadable :
    (∀ bs, Answering (hdrState bs unreadablePins) .unreadable) ∧ Answering (lastPrg unreadablePins) .unreadable ∧
      Answering (lastChr unreadablePins) .unreadable := ⟨fun _ => ⟨rfl, rfl⟩, ⟨rfl, rfl⟩, ⟨rfl, rfl⟩⟩

/-- Stage, `err`, and the two sizes as read, after one step. -/
def after (s : State) : Option (Stage × ErrKind × Nat × Nat) :=
  (nextOf (step s)).map fun t => (t.stage, t.err, t.prgRomSize.toNat, t.chrRomSize.toNat)

/-- `HDR(1, 0, 0, 0, 0)` with one program-code byte to go. -/
def lastPrgOnly : State :=
  { regionState .prg .none (hdr 1#8 0#8 0#8) 0 0 byte55 with pc := 0x400F#23, prgLen := 0x3FFF#22 }

/-- Each row of the transition table (42_image_assembler.md R141): a state the row is about, and its target. -/
theorem witness_EveryStageTransition_header :
    (nextOf (step (hdrState ((hdr 1#8 0#8 0#8).take 14) byte55))).map (·.stage) = some .hdr ∧
    after (hdrState ((hdr 1#8 0#8 0#8).take 15) byte55) = some (.prg, .none, 0x4000, 0) ∧
    after (hdrState ((hdr 0#8 1#8 0#8).take 15) byte55) = some (.chr, .none, 0, 1) ∧
    after (hdrState ((hdr 0#8 0#8 0#8).take 15) byte55) = some (.done, .none, 0, 0) := by
  refine ⟨?_, ?_, ?_, ?_⟩ <;> decide

theorem witness_EveryStageTransition_regions :
    after (regionState .prg .none h11 0 0 byte55) = some (.prg, .none, 0x4000, 1) ∧
    after (lastPrg byte55) = some (.chr, .none, 0x4000, 1) ∧
    after lastPrgOnly = some (.done, .none, 0x4000, 0) ∧
    after { lastChr byte55 with chrLen := 0x1FFE#21 } = some (.chr, .none, 0x4000, 1) ∧
    after (lastChr byte55) = some (.done, .none, 0x4000, 1) := by
  refine ⟨?_, ?_, ?_, ?_, ?_⟩ <;> decide

theorem witness_EveryStageTransition_errors :
    (nextOf (step (hdrState [] eosPins))).map (fun t => (t.stage, t.err)) = some (.fail, .truncatedHeader) ∧
    after (lastPrg eosPins) = some (.fail, .truncatedRegionPrg, 0x4000, 1) ∧
    after (lastChr eosPins) = some (.fail, .truncatedRegionChr, 0x4000, 1) ∧
    after (lastPrg unreadablePins) = some (.fail, .unreadableSource, 0x4000, 1) ∧
    after (lastPrg Pins.idle) = some (.prg, .none, 0x4000, 1) ∧
    after (lastPrg rstPins) = (nextOf (step (hdrState [] rstPins))).map (fun t =>
      (t.stage, t.err, t.prgRomSize.toNat, t.chrRomSize.toNat)) := by
  refine ⟨?_, ?_, ?_, ?_, ?_, rfl⟩ <;> decide

theorem witness_StagesAreMetInOrder :
    (lastPrg byte55).pins.rst = false ∧ (∃ t, step (lastPrg byte55) = .next t) ∧
      (∃ t, step (regionState .prg .none h11 0 0 byte55) = .next t) := ⟨rfl, ⟨_, rfl⟩, _, rfl⟩

theorem witness_OnlyAnAcceptedByteMovesTheCursor :
    (∃ t, step (lastPrg byte55) = .next t) ∧ Answering (lastPrg byte55) (.byte 0x55#8) ∧
      (∃ t, step (lastPrg eosPins) = .next t) ∧ ∀ b, ¬ Answering (lastPrg eosPins) (.byte b) :=
  ⟨⟨_, rfl⟩, ⟨rfl, rfl⟩, ⟨_, rfl⟩, fun _ h => by cases answering_inj h answering_eos.2.1⟩

theorem witness_HdecKeepsOrDiscardsTheByte :
    ∀ n, n = 0 ∨ n = 8 ∨ n = 9 ∨ n = 14 →
      (hdrState (p2Header.take n) byte55).stage = .hdr ∧
        Answering (hdrState (p2Header.take n) byte55) (.byte 0x55#8) ∧
        (hdrState (p2Header.take n) byte55).pc.toNat = n ∧ n ≤ 14 := by
  rintro n (rfl | rfl | rfl | rfl) <;> exact ⟨rfl, ⟨rfl, rfl⟩, rfl, by decide⟩

theorem witness_HdecLatchesTheRecordAtTheSixteenthByte :
    (hdrState (p2Header.take 15) byte55).stage = .hdr ∧
      Answering (hdrState (p2Header.take 15) byte55) (.byte 0x55#8) ∧
      (hdrState (p2Header.take 15) byte55).pc = 15#23 := ⟨rfl, ⟨rfl, rfl⟩, rfl⟩

theorem witness_NextStageFollowsTheSizes : 0 < (0x4000#22).toNat ∧ 0 < (1#8).toNat := by decide

theorem witness_HdecFrame :
    (∃ t, exec .hdec (hdrState (p2Header.take 15) byte55) = .next t ∧
      t.x ≠ (hdrState (p2Header.take 15) byte55).x) ∧
    (∃ t, exec .hdec (hdrState (p2Header.take 8) byte55) = .next t ∧
      t.hbuf.get 8 ≠ (hdrState (p2Header.take 8) byte55).hbuf.get 8) ∧
    (∃ t, exec .hdec (hdrState [] eosPins) = .next t ∧ t.err ≠ (hdrState [] eosPins).err) :=
  ⟨⟨_, rfl, fun h => by cases congrArg HeaderRegs.prgRomSize h⟩, ⟨_, rfl, by decide⟩, _, rfl, by decide⟩

theorem witness_PaddingIsConsumedAndDiscarded :
    Answering (hdrState (p2Header.take 9) byte55) (.byte 0x55#8) ∧
      (hdrState (p2Header.take 9) byte55).pc ≠ BitVec.allOnes 23 ∧
      (hdrState (p2Header.take 9) byte55).pc.toNat = 9 ∧ (hdrState (p2Header.take 14) byte55).pc.toNat = 14 ∧
      Answering (hdrState (p2Header.take 9) eosPins) .eos ∧
      Answering (hdrState (p2Header.take 9) unreadablePins) .unreadable :=
  ⟨⟨rfl, rfl⟩, by decide, rfl, rfl, ⟨rfl, rfl⟩, ⟨rfl, rfl⟩⟩

theorem witness_FieldDecodersInAnyOrderGiveTheRecord (h : BitVec 128) :
    [decodePrgram h, decodeMapper h, decodeTrnr h, decodePers h, decodeMirr h, decodeChrsz h, decodePrgsz h,
      decodeTag h].Perm [decodeTag h, decodePrgsz h, decodeChrsz h, decodeMirr h, decodePers h, decodeTrnr h,
      decodeMapper h, decodePrgram h] :=
  (List.reverse_perm [decodeTag h, decodePrgsz h, decodeChrsz h, decodeMirr h, decodePers h, decodeTrnr h,
    decodeMapper h, decodePrgram h] :)

theorem witness_FieldDecoderFrame (s : State) :
    (∃ t, exec (.hdrTag 0x4E#8 0x45#8 0x53#8 0x1A#8) s = .next t) ∧ (∃ t, exec (.hdrPrgsz 2#8) s = .next t) ∧
      (∃ t, exec (.hdrChrsz 1#8) s = .next t) ∧ (∃ t, exec (.hdrMirr 9#8) s = .next t) ∧
      (∃ t, exec (.hdrPers 2#8) s = .next t) ∧ (∃ t, exec (.hdrTrnr 4#8) s = .next t) ∧
      (∃ t, exec (.hdrMapper 0x40#8 0xA0#8) s = .next t) ∧ (∃ t, exec (.hdrPrgram 5#8) s = .next t) :=
  ⟨⟨_, rfl⟩, ⟨_, rfl⟩, ⟨_, rfl⟩, ⟨_, rfl⟩, ⟨_, rfl⟩, ⟨_, rfl⟩, ⟨_, rfl⟩, _, rfl⟩

theorem witness_NoHeaderIsIllegal :
    (hdrState (p2Header.take 15) byte55).stage = .hdr ∧
      Answering (hdrState (p2Header.take 15) byte55) (.byte 0x55#8) ∧
      (hdrState (p2Header.take 15) byte55).pc.toNat ≤ 15 ∧
      Instr.hdrMirr 9#8 ∈ decodeAll (.hdr16 (headerWord p2Header)) := ⟨rfl, ⟨rfl, rfl⟩, by decide, by decide⟩

theorem witness_IgnoredBitsChangeNothing :
    (0xA0#8) >>> 4 = (firstNine p2Header)[7] >>> 4 ∧ 0xA0#8 ≠ (firstNine p2Header)[7] ∧
      (∀ n, n = 9 ∨ n = 15 → (hdrState (p2Header.take n) byte55).stage = .hdr ∧
        (hdrState (p2Header.take n) byte55).pc.toNat = n ∧
        Answering (hdrState (p2Header.take n) byte55) (.byte 0x55#8)) := by
  refine ⟨by decide, by decide, ?_⟩
  rintro n (rfl | rfl) <;> exact ⟨rfl, rfl, ⟨rfl, rfl⟩⟩

theorem witness_TagIsNotValidated_stream :
    (0#8 :: 0#8 :: 0#8 :: 0#8 :: p2Header.drop 4).length = p2Header.length ∧
      (0#8 :: 0#8 :: 0#8 :: 0#8 :: p2Header.drop 4).drop 4 = p2Header.drop 4 := by decide

theorem witness_TrainerIsBit2 :
    (hdrState (p2Header.take 15) byte55).stage = .hdr ∧ (hdrState (p2Header.take 15) byte55).pc = 15#23 ∧
      Answering (hdrState (p2Header.take 15) byte55) (.byte 0x55#8) := ⟨rfl, rfl, ⟨rfl, rfl⟩⟩

theorem witness_TagIsNotValidated :
    (∀ k : Fin 9, 4 ≤ k.val → (firstNine (0#8 :: 0#8 :: 0#8 :: 0#8 :: p2Header.drop 4)).get k =
      (firstNine p2Header).get k) ∧
      (firstNine (0#8 :: 0#8 :: 0#8 :: 0#8 :: p2Header.drop 4)).get 0 ≠ (firstNine p2Header).get 0 := by decide

theorem witness_OnlyTheSixteenthByteWritesTheRegisters :
    (hdrState (p2Header.take 15) byte55).pins.rst = false ∧
      ∃ t, step (hdrState (p2Header.take 15) byte55) = .next t ∧ t.x ≠ (hdrState (p2Header.take 15) byte55).x :=
  ⟨rfl, _, rfl, fun h => by cases congrArg HeaderRegs.prgRomSize h⟩

theorem witness_RdprgCopiesOneByte :
    (lastPrg byte55).stage = .prg ∧ Answering (lastPrg byte55) (.byte 0x55#8) ∧
      (lastPrg byte55).pc ≠ BitVec.allOnes 23 ∧ (lastPrg byte55).prgLen.toNat < Config.prgBufBytes ∧
      (lastPrg byte55).prgLen.toNat + 1 = (lastPrg byte55).prgRomSize.toNat ∧
      0 < (lastPrg byte55).chrRomSize.toNat ∧
      lastPrgOnly.prgLen.toNat + 1 = lastPrgOnly.prgRomSize.toNat ∧ lastPrgOnly.chrRomSize.toNat = 0 ∧
      (regionState .prg .none h11 0 0 byte55).prgLen.toNat + 1 ≠
        (regionState .prg .none h11 0 0 byte55).prgRomSize.toNat :=
  ⟨rfl, ⟨rfl, rfl⟩, by decide, by decide, by decide, by decide, by decide, by decide, by decide⟩

theorem witness_RdchrCopiesOneByte :
    (lastChr byte55).stage = .chr ∧ Answering (lastChr byte55) (.byte 0x55#8) ∧
      (lastChr byte55).pc ≠ BitVec.allOnes 23 ∧ (lastChr byte55).chrLen.toNat < Config.chrBufBytes ∧
      (lastChr byte55).chrLen.toNat + 1 = (lastChr byte55).chrRomSize.toNat * 0x2000 ∧
      (regionState .chr .none (hdr 0#8 1#8 0#8) 0 0 byte55).chrLen.toNat + 1 ≠
        (regionState .chr .none (hdr 0#8 1#8 0#8) 0 0 byte55).chrRomSize.toNat * 0x2000 :=
  ⟨rfl, ⟨rfl, rfl⟩, by decide, by decide, by decide, by decide⟩

theorem witness_RegionFrame :
    (∃ t, exec .rdprg (lastPrg byte55) = .next t ∧ t.prg.read 0x3FFF ≠ (lastPrg byte55).prg.read 0x3FFF) ∧
      (∃ t, exec .rdchr (lastChr byte55) = .next t ∧ t.chr.read 0x1FFF ≠ (lastChr byte55).chr.read 0x1FFF) ∧
      (∃ t, exec .rdprg (lastPrg eosPins) = .next t ∧ t.err ≠ (lastPrg eosPins).err) ∧
      (∃ t, exec .rdchr (lastChr eosPins) = .next t ∧ t.err ≠ (lastChr eosPins).err) :=
  ⟨⟨_, rfl, by decide⟩, ⟨_, rfl, by decide⟩, ⟨_, rfl, by decide⟩, _, rfl, by decide⟩

theorem witness_RegionBytesDecideNothing :
    (lastPrg byte55).stage = .prg ∧ (lastPrg byte55).pins.rst = false ∧ (∃ t, step (lastPrg byte55) = .next t) ∧
      (lastChr byte55).stage = .chr ∧ (lastChr byte55).pins.rst = false ∧ (∃ t, step (lastChr byte55) = .next t) :=
  ⟨rfl, rfl, ⟨_, rfl⟩, rfl, rfl, _, rfl⟩

theorem witness_RaiseWritesErrAndStageOnly :
    ((hdrState [] eosPins).stage = .hdr ∧ Answering (hdrState [] eosPins) .eos ∧
        Answering (hdrState [] unreadablePins) .unreadable) ∧
      ((lastPrg eosPins).stage = .prg ∧ Answering (lastPrg eosPins) .eos ∧
        Answering (lastPrg unreadablePins) .unreadable) ∧
      ((lastChr eosPins).stage = .chr ∧ Answering (lastChr eosPins) .eos ∧
        Answering (lastChr unreadablePins) .unreadable) :=
  ⟨⟨rfl, answering_eos.1 _, answering_unreadable.1 _⟩, ⟨rfl, answering_eos.2.1, answering_unreadable.2.1⟩,
    ⟨rfl, answering_eos.2.2, answering_unreadable.2.2⟩⟩

theorem witness_FailingAnswersRaiseTheStagesError :
    (Inv (p2Header.take 15) (hdrState (p2Header.take 15) eosPins) ∧
      Answering (hdrState (p2Header.take 15) eosPins) .eos) ∧
    (Inv (regionBytes h11 0x3FFF 0) (regionState .prg .none h11 0x3FFF 0 eosPins) ∧
      Answering (regionState .prg .none h11 0x3FFF 0 eosPins) .eos) ∧
    (Inv (regionBytes h11 0x4000 0x1FFF) (regionState .chr .none h11 0x4000 0x1FFF eosPins) ∧
      Answering (regionState .chr .none h11 0x4000 0x1FFF eosPins) .eos) ∧
    (Inv [] (hdrState [] unreadablePins) ∧ Answering (hdrState [] unreadablePins) .unreadable ∧
      (hdrState [] unreadablePins).pins.rst = false) :=
  ⟨⟨hdrState_inv _ _ (by decide), ⟨rfl, rfl⟩⟩, ⟨(h11_inv _).2.1, ⟨rfl, rfl⟩⟩,
    ⟨(h11_inv _).2.2.2.1, ⟨rfl, rfl⟩⟩, hdrState_inv _ _ (by decide), ⟨rfl, rfl⟩, rfl⟩

theorem witness_WhereABeatStops :
    (lastPrg byte55).srcReq = true ∧ (lastPrg byte55).pins.presented = .answer (.byte 0x55#8) ∧
      { lastPrg byte55 with pc := BitVec.allOnes 23 }.pc = BitVec.allOnes 23 ∧
      Config.prgBufBytes ≤ ({ lastPrg byte55 with prgLen := 0x3FC000#22 } : State).prgLen.toNat ∧
      Config.chrBufBytes ≤ ({ lastChr byte55 with chrLen := 0x1FE000#21 } : State).chrLen.toNat ∧
      (hdrState [] ⟨false, true, 3#2, 0#8⟩).srcReq = true ∧
      (hdrState [] ⟨false, true, 3#2, 0#8⟩).pins.srcAck = true ∧
      (hdrState [] ⟨false, true, 3#2, 0#8⟩).pins.srcKind = 3#2 :=
  ⟨rfl, rfl, rfl, by decide, by decide, rfl, rfl, rfl⟩

/-- The clause that says where no beat stops: at the last cursor value and the last addresses that are left. -/
theorem witness_WhereABeatStops_nowhereElse :
    (∀ b, Answering { lastPrg byte55 with pc := 0x7FFFFE#23 } (.byte b) → (0x7FFFFE#23) ≠ BitVec.allOnes 23) ∧
      ¬ ((lastPrg byte55).srcReq = true ∧ (lastPrg byte55).pins.srcAck = true ∧ (lastPrg byte55).pins.srcKind = 3#2) ∧
      (∀ b, Answering { lastPrg byte55 with prgLen := 0x3FBFFF#22 } (.byte b) →
        (0x3FBFFF#22).toNat < Config.prgBufBytes) ∧
      (∀ b, Answering { lastChr byte55 with chrLen := 0x1FDFFF#21 } (.byte b) →
        (0x1FDFFF#21).toNat < Config.chrBufBytes) ∧
      Answering { lastPrg byte55 with pc := 0x7FFFFE#23 } (.byte 0x55#8) :=
  ⟨fun _ _ => by decide, by decide, fun _ _ => by decide, fun _ _ => by decide, ⟨rfl, rfl⟩⟩

theorem witness_ResetMeetsTheInvariants : ∃ t, exec .reset failState = .next t := ⟨_, rfl⟩

theorem witness_EveryStepKeepsTheInvariants :
    Inv (regionBytes h11 0x3FFF 0) (regionState .prg .none h11 0x3FFF 0 byte55) ∧
      ∃ t, step (regionState .prg .none h11 0x3FFF 0 byte55) = .next t := ⟨(h11_inv _).2.1, _, rfl⟩

theorem witness_NoStepFaultsUnderTheInvariants :
    Inv (regionBytes h11 0x3FFF 0) (regionState .prg .none h11 0x3FFF 0 byte55) ∧ proper byte55 = true ∧
      Inv (regionBytes h11 0x4000 0x1FFF) (regionState .chr .none h11 0x4000 0x1FFF byte55) :=
  ⟨(h11_inv _).2.1, rfl, (h11_inv _).2.2.2.1⟩

theorem witness_ConsumptionIsExact :
    (Inv (regionBytes h11 0x4000 0x2000) doneState ∧ doneState.stage = .done) ∧
      (Inv (regionBytes h11 0x3FFF 0) failState ∧ failState.stage = .fail) :=
  ⟨⟨(h11_inv _).2.2.2.2.1, rfl⟩, (h11_inv _).2.2.2.2.2.1, rfl⟩

theorem witness_DoneExposesAWellFormedImage :
    Inv (regionBytes h11 0x4000 0x2000) doneState ∧ doneState.stage = .done := ⟨(h11_inv _).2.2.2.2.1, rfl⟩

theorem witness_NothingPartialIsExposed :
    failState.stage = .fail ∧ (hdrState [] byte55).stage = .hdr ∧ (lastPrg byte55).stage = .prg ∧
      (lastChr byte55).stage = .chr := ⟨rfl, rfl, rfl, rfl⟩

theorem witness_HostReadsTheStreamBytesAtDone :
    Inv (regionBytes h11 0x4000 0x2000) doneState ∧ doneState.stage = .done ∧
      0x3FFF#22 < doneState.prgLen ∧ doneState.prgLen ≤ 0x4000#22 ∧
      0x1FFF#21 < doneState.chrLen ∧ doneState.chrLen ≤ 0x2000#21 :=
  ⟨(h11_inv _).2.2.2.2.1, rfl, by decide, by decide, by decide, by decide⟩

theorem witness_StatusSignalsFollowTheStage :
    (Inv (regionBytes h11 0x3FFF 0) (regionState .prg .none h11 0x3FFF 0 byte55) ∧
      (regionState .prg .none h11 0x3FFF 0 byte55).pins.rst = false ∧
      Answering (regionState .prg .none h11 0x3FFF 0 byte55) (.byte 0x55#8)) ∧
    (doneState.stage = .done ∧ NoReset doneState) ∧ failState.stage = .fail ∧ NoReset failState :=
  ⟨⟨(h11_inv _).2.1, rfl, ⟨rfl, rfl⟩⟩, ⟨rfl, witness_OnlyResetLeavesATerminalStage.1⟩, rfl,
    witness_OnlyResetLeavesATerminalStage.2.1⟩

theorem witness_StatusPortsCarryTheControlState :
    (Inv (regionBytes h11 0x4000 0x2000) doneState ∧ doneState.stage ≠ .fail) ∧
      (Inv (regionBytes h11 0x3FFF 0) failState ∧ failState.stage = .fail) :=
  ⟨⟨(h11_inv _).2.2.2.2.1, Stage.noConfusion⟩, (h11_inv _).2.2.2.2.2.1, rfl⟩

theorem witness_ResultPortsAnswerAtDone :
    Inv (regionBytes h11 0x4000 0x2000) doneState ∧ doneState.stage = .done := ⟨(h11_inv _).2.2.2.2.1, rfl⟩

/-- The header of P2 at DONE (95_test_vectors.md P2): three of its ports, and the absent block. -/
theorem test_ports_done :
    (regionState .done .none p2Header 0 0 Pins.idle).portX4.toOption = some 2#2 ∧
      (regionState .done .none p2Header 0 0 Pins.idle).portX7.toOption = some 164#8 ∧
      (regionState .done .none p2Header 0 0 Pins.idle).portPrgPresent.toOption = some false ∧
      (regionState .done .none p2Header 0 0 Pins.idle).portPrgLen.toOption = some 0#22 := by decide

/-- The ports after TruncatedRegion in PRG: the codes of 30_encoding.md R87 and R88. -/
theorem test_status_ports_fail :
    (regionState .fail .truncatedRegionPrg h11 0 0 Pins.idle).statusPorts =
      ⟨false, 0b100#3, false, true, 16#23⟩ ∧
      (regionState .fail .truncatedRegionPrg h11 0 0 Pins.idle).portErr.toOption = some 2#3 := by decide

/-- 92_eei_decisions.md D15: `err` is not readable while the run is busy, nor at DONE. -/
theorem test_err_port_elsewhere :
    (hdrState [] Pins.idle).portErr.toOption = none ∧
      (regionState .done .none p2Header 0 0 Pins.idle).portErr.toOption = none := by decide

/-- A source that answers every request with 07, for longer than any run. -/
def longFeed : List Pins := List.replicate Config.pcMax (Pins.byte 7#8)

theorem longFeed_mem (p : Pins) (h : p ∈ Pins.byte 7#8 :: longFeed) : p = Pins.byte 7#8 := by
  rcases List.mem_cons.1 h with h | h
  · exact h
  · exact List.eq_of_mem_replicate h

theorem longFeed_length : longFeed.length = Config.pcMax := List.length_replicate

theorem inv_withFeed {bs : List Byte} {s : State} (h : Inv bs s) (f : List Pins) : Inv bs { s with feed := f } :=
  ⟨h.pc_eq, h.pc_le, h.fail_iff, h.prg_written, h.chr_written, h.hdr, h.past_header, h.unwritten, h.written, h.prg,
    h.chr, h.done, h.fail_pc, h.short_header, h.short_prg, h.short_chr, h.prg_bytes, h.chr_bytes⟩

theorem witness_EveryAnsweredRunEnds_source :
    Inv [] { hdrState [] (Pins.byte 7#8) with feed := longFeed } ∧
      (∀ p ∈ Pins.byte 7#8 :: longFeed, answered p = true) ∧
      Config.pcMax ≤ ([] : List Byte).length + longFeed.length :=
  ⟨inv_withFeed (hdrState_inv [] _ (by decide)) _, fun p hp => by rw [longFeed_mem p hp]; rfl,
    Nat.le_trans (Nat.le_of_eq longFeed_length.symm) (Nat.le_add_left _ _)⟩

theorem witness_EveryAnsweredRunEnds_silence :
    (hdrState [] Pins.idle).srcReq = true ∧
      ∀ p ∈ (hdrState [] Pins.idle).pins :: (hdrState [] Pins.idle).feed, p.rst = false ∧ p.srcAck = false := by
  refine ⟨rfl, fun p hp => ?_⟩
  rw [List.mem_singleton.1 hp]
  exact ⟨rfl, rfl⟩

theorem witness_DecodeIsTheRunOfSteps : ∃ t, exec .decode (hdrState [] eosPins) = .next t := ⟨_, rfl⟩

theorem witness_DecodeCompletes :
    (∀ p ∈ Pins.byte 7#8 :: longFeed, proper p = true) ∧ (∀ p ∈ Pins.byte 7#8 :: longFeed, answered p = true) ∧
      Config.pcMax ≤ longFeed.length :=
  ⟨fun p hp => by rw [longFeed_mem p hp]; rfl, fun p hp => by rw [longFeed_mem p hp]; rfl,
    Nat.le_of_eq longFeed_length.symm⟩

theorem witness_TrailingBytesAreIgnored :
    16 ≤ p2Header.length ∧ p2Header.length = imageLen (p2Header.getD 4 0#8) (p2Header.getD 5 0#8) := by decide

theorem witness_WaitingChangesNoResult :
    (∀ p ∈ [Pins.idle, eosPins], p.rst = false) ∧
      ∃ t, exec .decode (State.reset.withMoments [Pins.idle, eosPins]) = .next t := ⟨by decide, _, rfl⟩

theorem witness_DecodeOfEncodeIsTheOperation :
    (Instr.hdrMapper 0xF0#8 0xF0#8).wellFormed = true ∧ (Instr.hdrMirr 0x09#8).wellFormed = true := by decide

end Sys2Proof.Tests
end

section
/-! Proofs of the state family (10_state.md): the reset table and the status signals. The facts about accepted bytes
and about a run in a terminal stage come first. -/

namespace Sys2Proof.Safety

open Sys2Proof Sys2Proof.Machine

/-! ### The byte a beat accepts -/

/-- Where the invariants hold the cursor is below `PC_MAX` and so never full (10_state.md R24). -/
theorem Inv.pc_ne_allOnes {bs : List Byte} {s : State} (h : Inv bs s) : s.pc ≠ BitVec.allOnes 23 := by
  intro hfull
  have hle : s.pc.toNat ≤ 0x5FA010 := h.pc_le
  rw [hfull] at hle
  exact absurd hle (by decide)

/-- Under the invariants `Next()` accepts every byte the source answers with. -/
theorem Inv.fetchNext_of_answering_byte {bs : List Byte} {s : State} {b : Byte} (h : Inv bs s)
    (ha : Answering s (.byte b)) : s.fetchNext = .byte b s.advancePc :=
  fetchNext_of_byte ha.1 ha.2 h.pc_ne_allOnes

theorem accepted_of_fetchNext_byte {s t : State} {b : Byte} (bs : List Byte) (hr : s.pins.rst = false)
    (hf : s.fetchNext = .byte b t) : accepted bs s = bs ++ [b] := by
  simp [accepted, hr, hf]

/-- The byte a beat accepts stands in the stream at offset `pc` (10_state.md R33). -/
theorem Inv.accepted_getElem?_pc {bs : List Byte} {s : State} {b : Byte} (h : Inv bs s) (hr : s.pins.rst = false)
    (ha : Answering s (.byte b)) : (accepted bs s)[s.pc.toNat]? = some b := by
  rw [accepted_of_fetchNext_byte bs hr (h.fetchNext_of_answering_byte ha), h.pc_eq]
  exact List.getElem?_concat_length

/-! ### A run in a terminal stage -/

theorem terminal_iff_done_or_fail (g : Stage) : g.terminal = true ↔ g = .done ∨ g = .fail := by
  cases g <;> decide

theorem sameMachine_refl (s : State) : sameMachine s s :=
  ⟨rfl, rfl, rfl, rfl, rfl, rfl, rfl, rfl, rfl⟩

/-- The next levels of the input ports are no part of the machine. -/
theorem sameMachine_of_tick {s t : State} (h : sameMachine s.tick t) : sameMachine s t := h

theorem srcReq_of_terminal {s : State} (h : s.stage.terminal = true) : s.srcReq = false := by
  rw [srcReq_eq_not_terminal, h]; rfl

/-- A terminal stage takes no step: only the input ports move on (42_image_assembler.md R152). -/
theorem step_of_terminal {s : State} (h : s.stage.terminal = true) (hr : s.pins.rst = false) :
    step s = .next s.tick := by
  rw [step_eq_moment]
  simp [moment, hr, stageBeat_terminal h]

theorem NoReset.rst_eq_false {s : State} (h : NoReset s) : s.pins.rst = false :=
  h s.pins List.mem_cons_self

/-- The moments after this one ask for no reset either; a spent feed is idle. -/
theorem NoReset.tick {s : State} (h : NoReset s) : NoReset s.tick := by
  intro p hp
  rw [State.tick_pins, State.tick_feed] at hp
  cases hf : s.feed with
  | nil =>
    rw [hf] at hp
    rw [List.mem_singleton.1 hp]
    rfl
  | cons q ps =>
    rw [hf] at hp
    exact h p (List.mem_cons_of_mem _ (hf ▸ hp))

/-- Without a reset every number of steps leaves a terminal machine as it is (60_exceptions.md R171). -/
theorem runsTo_of_terminal (n : Nat) {s : State} (h : s.stage.terminal = true) (hn : NoReset s) :
    ∃ t, runsTo n s t ∧ sameMachine s t := by
  induction n generalizing s with
  | zero => exact ⟨s, rfl, sameMachine_refl s⟩
  | succ n ih =>
    obtain ⟨t, hrun, hsame⟩ := ih (s := s.tick) h hn.tick
    exact ⟨t, (run_succ_next (step_of_terminal h hn.rst_eq_false)).trans hrun, sameMachine_of_tick hsame⟩

/-- A terminal machine asks for no byte and consumes none until a reset (10_state.md R33). -/
theorem runsTo_srcReq_pc_of_terminal (n : Nat) {s : State} (h : s.stage.terminal = true) (hn : NoReset s) :
    ∃ t, runsTo n s t ∧ t.srcReq = false ∧ t.pc = s.pc := by
  obtain ⟨t, hrun, hstage, hpc, -⟩ := runsTo_of_terminal n h hn
  exact ⟨t, hrun, srcReq_of_terminal (hstage ▸ h), hpc⟩

/-- Settles O56: the signals are decided by `stage`, an accepted byte lands at offset `pc` of the stream, and a
terminal run keeps its stage and its cursor, by induction on the number of steps. -/
theorem statusSignalsFollowTheStage : Obligations.StatusSignalsFollowTheStage :=
  ⟨fun s => ⟨s.done_iff, s.failed_iff, s.srcReq_iff⟩,
    fun _ _ _ hinv hr ha => hinv.accepted_getElem?_pc hr ha,
    fun s hs hn n => runsTo_srcReq_pc_of_terminal n ((terminal_iff_done_or_fail s.stage).2 hs) hn⟩

/-! ### The reset table -/

theorem atReset_reset : AtReset State.reset :=
  ⟨rfl, rfl, rfl, rfl, rfl, by decide, rfl, Memory.read_nil, Memory.read_nil⟩

/-- Settles O1: the nine pieces of state are `atReset_reset`; the derived signals are functions of HDR and of the
unwritten size registers. -/
theorem resetStateHoldsTheTableValues : Obligations.ResetStateHoldsTheTableValues :=
  ⟨atReset_reset, rfl, rfl, rfl, rfl, rfl⟩

end Sys2Proof.Safety
end

section
/-! Proof of the memory family (20_memory.md R63). A byte accepted at a stage keeps the invariants
(`Inv.takeByte`); under them the machine is at DONE exactly when it has accepted what the header declares, so a run
over the declared bytes ends there with whatever follows them still ahead. -/

namespace Sys2Proof.Machine

/-! ### One accepted byte, apart from the ports that bring it -/

/-- What the stage the machine is in does with one accepted byte (40_header_decoder.md R110, 41_region_reader.md
R130, R132); `Inv.stageBeat_of_byte` ties it to the beat. -/
def State.takeByte (s : State) (b : Byte) : State :=
  match s.stage with
  | .hdr => s.advancePc.acceptHeaderByte s.pc b
  | .prg => s.advancePc.acceptPrgByte b
  | .chr => s.advancePc.acceptChrByte b
  | .done => s
  | .fail => s

/-- The state after these bytes, one beat each. -/
def State.takeBytes (s : State) (bytes : List Byte) : State := bytes.foldl State.takeByte s

theorem takeByte_of_hdr {s : State} (h : s.stage = .hdr) (b : Byte) :
    s.takeByte b = s.advancePc.acceptHeaderByte s.pc b := by simp [State.takeByte, h]

theorem takeByte_of_prg {s : State} (h : s.stage = .prg) (b : Byte) :
    s.takeByte b = s.advancePc.acceptPrgByte b := by simp [State.takeByte, h]

theorem takeByte_of_chr {s : State} (h : s.stage = .chr) (b : Byte) :
    s.takeByte b = s.advancePc.acceptChrByte b := by simp [State.takeByte, h]

/-- A header byte before the sixteenth goes to its cell; beyond cell 8 there is none, and the store does nothing
(10_state.md R29). -/
theorem acceptHeaderByte_eq_store {k : BitVec 23} (h : k ≠ 15#23) (b : Byte) (s : State) :
    s.acceptHeaderByte k b = s.storeHeaderByte k.toNat b := by
  rw [acceptHeaderByte_of_ne k b s h]
  split
  · rfl
  · next hk =>
    have hk9 : 9 ≤ k.toNat := by rw [BitVec.le_def] at hk; simp at hk; omega
    simp [State.storeHeaderByte, Vector.setIfInBounds, Array.setIfInBounds, Nat.not_lt.2 hk9]

/-- A program-code byte, with the stage it leads to. -/
theorem acceptPrgByte_eq_setStage (b : Byte) (s : State) :
    s.acceptPrgByte b = (s.appendPrg b).setStage
      (if s.prgLen + 1#22 = s.prgRomSize then afterPrg s.chrRomSize else s.stage) := by
  by_cases h : s.prgLen + 1#22 = s.prgRomSize
  · rw [if_pos h]; exact if_pos h
  · rw [if_neg h]; exact if_neg h

/-- A graphics byte, with the stage it leads to. -/
theorem acceptChrByte_eq_setStage (b : Byte) (s : State) :
    s.acceptChrByte b = (s.appendChr b).setStage
      (if s.chrLen + 1#21 = chrBytes s.chrRomSize then .done else s.stage) := by
  by_cases h : s.chrLen + 1#21 = chrBytes s.chrRomSize
  · rw [if_pos h]; exact if_pos h
  · rw [if_neg h]; exact if_neg h

/-! ### The moments ahead are no part of what a byte does -/

@[simp] theorem withMoments_pc (s : State) (ps : List Pins) : (s.withMoments ps).pc = s.pc := rfl

theorem finishHeader_withMoments (s : State) (ps : List Pins) :
    (s.withMoments ps).finishHeader = s.finishHeader.withMoments ps := by
  have hb : (s.withMoments ps).headerBytes = s.headerBytes := rfl
  simp only [State.finishHeader, hb]
  generalize decodeHeader s.headerBytes = r
  generalize afterHeader r.prgRomSize r.chrRomSize = g
  rfl

theorem tick_withMoments_cons (s : State) (p : Pins) (ps : List Pins) :
    (s.withMoments (p :: ps)).tick = s.withMoments ps := rfl

theorem takeByte_withMoments (s : State) (b : Byte) (ps : List Pins) :
    (s.withMoments ps).takeByte b = (s.takeByte b).withMoments ps := by
  cases hs : s.stage with
  | hdr =>
    rw [takeByte_of_hdr hs, takeByte_of_hdr (s := s.withMoments ps) hs]
    by_cases hk : s.pc = 15#23
    · rw [withMoments_pc, hk, acceptHeaderByte_last, acceptHeaderByte_last, ← finishHeader_withMoments]; rfl
    · rw [withMoments_pc, acceptHeaderByte_eq_store hk, acceptHeaderByte_eq_store hk]; rfl
  | prg =>
    rw [takeByte_of_prg hs, takeByte_of_prg (s := s.withMoments ps) hs, acceptPrgByte_eq_setStage,
      acceptPrgByte_eq_setStage]
    rfl
  | chr =>
    rw [takeByte_of_chr hs, takeByte_of_chr (s := s.withMoments ps) hs, acceptChrByte_eq_setStage,
      acceptChrByte_eq_setStage]
    rfl
  | done => simp [State.takeByte, hs, State.withMoments]
  | fail => simp [State.takeByte, hs, State.withMoments]

/-! ### The moments of a canonical source -/

/-- From offset `p` on, a source answers with the bytes that are left and then with `EOS` (20_memory.md R55). -/
theorem canonical_answersFrom (bytes rest : List Byte) (p : Nat) (h : bytes.drop p = rest) :
    (Source.canonical true bytes).answersFrom p rest = rest.map Answer.byte ++ [.eos] := by
  induction rest generalizing p with
  | nil =>
    have hp : bytes[p]? = none := List.getElem?_eq_none (List.drop_eq_nil_iff.1 h)
    simp [Source.answersFrom, Source.answer, Source.canonical, hp]
  | cons b rest ih =>
    have hp : bytes[p]? = some b := by rw [← List.head?_drop, h]; rfl
    have hrest : bytes.drop (p + 1) = rest := by rw [← List.tail_drop, h]; rfl
    have ha : (Source.canonical true bytes).answer p = .byte b := by
      simp [Source.answer, Source.canonical, hp]
    simp only [Source.answersFrom, ha, ih (p + 1) hrest]
    rfl

theorem canonical_moments (bytes : List Byte) :
    (Source.canonical true bytes).answers.map Answer.pins = bytes.map Pins.byte ++ [Answer.pins .eos] := by
  have h : (Source.canonical true bytes).answers = bytes.map Answer.byte ++ [.eos] :=
    canonical_answersFrom bytes bytes 0 rfl
  rw [h, List.map_append, List.map_map]
  rfl

theorem connect_canonical_append (s : State) (bytes extra : List Byte) :
    s.connect (.canonical true (bytes ++ extra)) =
      s.withMoments (bytes.map Pins.byte ++ (extra.map Pins.byte ++ [Answer.pins .eos])) := by
  rw [State.connect, canonical_moments, List.map_append, List.append_assoc]

/-! ### DECODE, moment by moment -/

theorem runFrom_of_terminal (feed : List Pins) {s : State} (h : s.stage.terminal = true) :
    runFrom feed s = .next s := by
  cases feed <;> exact if_pos h

theorem runFrom_cons_of_moment (p : Pins) (feed : List Pins) {s t : State} (h : s.stage.terminal = false)
    (hm : moment s = .next t) : runFrom (p :: feed) s = runFrom feed t.tick := by
  rw [runFrom, if_neg (by simp [h]), hm, onNext_next]

end Sys2Proof.Machine

namespace Sys2Proof.Safety

open Sys2Proof Sys2Proof.Machine

/-! ### A buffer that grows by the byte the stream holds next -/

theorem WrittenBelow.write {m : Memory} {n : Nat} (h : WrittenBelow m n) (b : Byte) :
    WrittenBelow (m.write n b) (n + 1) := by
  refine ⟨Memory.wf_write m n b h.1, fun a => ?_⟩
  rw [Memory.read_write]
  split
  · next ha => simp [ha]
  · next ha => rw [h.2 a]; omega

/-- A buffer holding the stream from offset `o` on still does once it takes the next byte. -/
theorem read_write_append {m : Memory} {bs : List Byte} {o n : Nat} (h : ∀ i, i < n → m.read i = bs[o + i]?)
    (hlen : bs.length = o + n) (b : Byte) {i : Nat} (hi : i < n + 1) :
    (m.write n b).read i = (bs ++ [b])[o + i]? := by
  rw [Memory.read_write]
  split
  · next hin => rw [hin, ← hlen, List.getElem?_concat_length]
  · next hin => rw [h i (by omega), List.getElem?_append_left (by omega)]

/-! ### The invariants past the header -/

/-- How far the region stages are, for the sizes the header declares (42_image_assembler.md R142, R143, R149). -/
def RegionProgress (r : HeaderRecord) (s : State) : Prop :=
  (s.stage = .prg ∧ s.prgLen < r.prgRomSize ∧ s.chrLen = 0#21) ∨
  (s.stage = .chr ∧ s.prgLen = r.prgRomSize ∧ s.chrLen < chrBytes r.chrRomSize) ∨
  (s.stage = .done ∧ s.prgLen = r.prgRomSize ∧ s.chrLen = chrBytes r.chrRomSize)

/-- The invariants of the stages PRG, CHR and DONE, without the clauses of the other stages
(`PastHeader.inv`, `Inv.pastHeader`). -/
structure PastHeader (bs : List Byte) (s : State) : Prop where
  err : s.err = .none
  pc : s.pc.toNat = bs.length
  x : s.x = (decodeHeader (firstNine bs)).regs
  length : bs.length = 16 + s.prgLen.toNat + s.chrLen.toNat
  progress : RegionProgress (decodeHeader (firstNine bs)) s
  prg_written : WrittenBelow s.prg s.prgLen.toNat
  chr_written : WrittenBelow s.chr s.chrLen.toNat
  prg_bytes : ∀ i, i < s.prgLen.toNat → s.prg.read i = bs[16 + i]?
  chr_bytes : ∀ j, j < s.chrLen.toNat →
    s.chr.read j = bs[16 + (decodeHeader (firstNine bs)).prgRomSize.toNat + j]?

theorem RegionProgress.stage {r : HeaderRecord} {s : State} (h : RegionProgress r s) :
    s.stage = .prg ∨ s.stage = .chr ∨ s.stage = .done := by
  rcases h with ⟨h, -⟩ | ⟨h, -⟩ | ⟨h, -⟩ <;> simp [h]

theorem regionProgress_of_afterPrg {r : HeaderRecord} {s : State} (hp : s.prgLen = r.prgRomSize)
    (hc : s.chrLen = 0#21) (hs : s.stage = afterPrg r.chrRomSize) : RegionProgress r s := by
  have hn := chrBytes_toNat r.chrRomSize
  cases hpres : chrPresent r.chrRomSize with
  | true =>
    have h0 := (chrPresent_iff _).1 hpres
    refine .inr (.inl ⟨by simpa [afterPrg, hpres] using hs, hp, ?_⟩)
    rw [hc, BitVec.lt_def, hn, BitVec.toNat_ofNat]
    omega
  | false =>
    have h0 : ¬ 0 < r.chrRomSize.toNat := by simp [← chrPresent_iff, hpres]
    refine .inr (.inr ⟨by simpa [afterPrg, hpres] using hs, hp, ?_⟩)
    apply BitVec.eq_of_toNat_eq
    rw [hc, hn, BitVec.toNat_ofNat]
    omega

theorem regionProgress_of_afterHeader {r : HeaderRecord} {s : State} (hp : s.prgLen = 0#22) (hc : s.chrLen = 0#21)
    (hs : s.stage = afterHeader r.prgRomSize r.chrRomSize) : RegionProgress r s := by
  cases hpres : prgPresent r.prgRomSize with
  | true =>
    refine .inl ⟨by simpa [afterHeader, hpres] using hs, ?_, hc⟩
    rw [hp, BitVec.lt_def]
    exact (prgPresent_iff _).1 hpres
  | false =>
    have h0 : ¬ 0 < r.prgRomSize.toNat := by simp [← prgPresent_iff, hpres]
    refine regionProgress_of_afterPrg ?_ hc (by simpa [afterHeader, afterPrg, hpres] using hs)
    apply BitVec.eq_of_toNat_eq
    rw [hp, BitVec.toNat_ofNat]
    omega

/-- No header declares a region larger than its buffer (00_scope.md R6). -/
theorem prgRomSize_le (h : Vector Byte 9) : (decodeHeader h).prgRomSize.toNat ≤ 0x3FC000 := by
  have hu := h[4].isLt
  have hv : (decodeHeader h).prgRomSize.toNat = h[4].toNat * 0x4000 := prgszValue_toNat h[4]
  omega

theorem chrBytes_le (u : BitVec 8) : (chrBytes u).toNat ≤ 0x1FE000 := by
  have hu := u.isLt
  have hv := chrBytes_toNat u
  omega

theorem RegionProgress.prgLen_le {h : Vector Byte 9} {s : State} (hp : RegionProgress (decodeHeader h) s) :
    s.prgLen.toNat ≤ 0x3FC000 := by
  have hle := prgRomSize_le h
  rcases hp with ⟨-, hp, -⟩ | ⟨-, hp, -⟩ | ⟨-, hp, -⟩
  · have := BitVec.lt_def.1 hp; omega
  · rwa [hp]
  · rwa [hp]

theorem RegionProgress.chrLen_le {r : HeaderRecord} {s : State} (hp : RegionProgress r s) :
    s.chrLen.toNat ≤ 0x1FE000 := by
  have hle := chrBytes_le r.chrRomSize
  rcases hp with ⟨-, -, hc⟩ | ⟨-, -, hc⟩ | ⟨-, -, hc⟩
  · simp [hc]
  · have := BitVec.lt_def.1 hc; omega
  · rwa [hc]

theorem PastHeader.x_prgRomSize {bs : List Byte} {s : State} (h : PastHeader bs s) :
    s.x.prgRomSize = some (decodeHeader (firstNine bs)).prgRomSize := by
  rw [h.x]; rfl

theorem PastHeader.x_chrRomSize {bs : List Byte} {s : State} (h : PastHeader bs s) :
    s.x.chrRomSize = some (decodeHeader (firstNine bs)).chrRomSize := by
  rw [h.x]; rfl

theorem PastHeader.inv {bs : List Byte} {s : State} (h : PastHeader bs s) : Inv bs s := by
  have hprg := h.progress.prgLen_le
  have hchr := h.progress.chrLen_le
  have hlen := h.length
  have hpc := h.pc
  have hstage := h.progress.stage
  have hnf : s.stage ≠ .fail := by rintro hs; simp [hs] at hstage
  have hnh : s.stage ≠ .hdr := by rintro hs; simp [hs] at hstage
  exact
    { pc_eq := hpc
      pc_le := by simp only [Config.pcMax]; omega
      fail_iff := by simp [hnf, h.err]
      prg_written := h.prg_written
      chr_written := h.chr_written
      hdr := fun hs => absurd hs hnh
      past_header := fun _ => by omega
      unwritten := fun _ => by omega
      written := fun _ => ⟨h.x, by omega⟩
      prg := fun hs n hn => by
        obtain rfl := Option.some.inj (h.x_prgRomSize.symm.trans hn)
        simpa [RegionProgress, hs] using h.progress
      chr := fun hs n u hn hu => by
        obtain rfl := Option.some.inj (h.x_prgRomSize.symm.trans hn)
        obtain rfl := Option.some.inj (h.x_chrRomSize.symm.trans hu)
        simpa [RegionProgress, hs] using h.progress
      done := fun hs n u hn hu => by
        obtain rfl := Option.some.inj (h.x_prgRomSize.symm.trans hn)
        obtain rfl := Option.some.inj (h.x_chrRomSize.symm.trans hu)
        simpa [RegionProgress, hs] using h.progress
      fail_pc := fun hs => absurd hs hnf
      short_header := fun he => by simp [h.err] at he
      short_prg := fun he => by simp [h.err] at he
      short_chr := fun he => by simp [h.err] at he
      prg_bytes := h.prg_bytes
      chr_bytes := fun j hj n hn => by
        obtain rfl := Option.some.inj (h.x_prgRomSize.symm.trans hn)
        exact h.chr_bytes j hj }

theorem Inv.err_eq_none {bs : List Byte} {s : State} (h : Inv bs s) (hs : s.stage ≠ .fail) : s.err = .none := by
  by_contra he
  exact hs (h.fail_iff.2 he)

theorem Inv.pastHeader {bs : List Byte} {s : State} (h : Inv bs s)
    (hs : s.stage = .prg ∨ s.stage = .chr ∨ s.stage = .done) : PastHeader bs s := by
  obtain ⟨hx, hpc⟩ := h.written (h.past_header hs)
  have hn : s.x.prgRomSize = some (decodeHeader (firstNine bs)).prgRomSize := by rw [hx]; rfl
  have hu : s.x.chrRomSize = some (decodeHeader (firstNine bs)).chrRomSize := by rw [hx]; rfl
  exact
    { err := h.err_eq_none (by rcases hs with hs | hs | hs <;> simp [hs])
      pc := h.pc_eq
      x := hx
      length := h.pc_eq.symm.trans hpc
      progress := by
        rcases hs with hs | hs | hs
        · exact .inl ⟨hs, h.prg hs _ hn⟩
        · exact .inr (.inl ⟨hs, h.chr hs _ _ hn hu⟩)
        · exact .inr (.inr ⟨hs, h.done hs _ _ hn hu⟩)
      prg_written := h.prg_written
      chr_written := h.chr_written
      prg_bytes := h.prg_bytes
      chr_bytes := fun j hj => h.chr_bytes j hj _ hn }

theorem PastHeader.prgRomSize_eq {bs : List Byte} {s : State} (h : PastHeader bs s) :
    s.prgRomSize = (decodeHeader (firstNine bs)).prgRomSize := by
  rw [State.prgRomSize, h.x_prgRomSize, Option.getD_some]

theorem PastHeader.chrRomSize_eq {bs : List Byte} {s : State} (h : PastHeader bs s) :
    s.chrRomSize = (decodeHeader (firstNine bs)).chrRomSize := by
  rw [State.chrRomSize, h.x_chrRomSize, Option.getD_some]

theorem PastHeader.firstNine_concat {bs : List Byte} {s : State} (h : PastHeader bs s) (b : Byte) :
    firstNine (bs ++ [b]) = firstNine bs :=
  firstNine_append [b] (by have := h.length; omega)

/-! ### An accepted byte keeps the invariants -/

theorem inv_of_hdr {bs : List Byte} {s : State} (hs : s.stage = .hdr) (herr : s.err = .none)
    (hpc : s.pc.toNat = bs.length) (hle : bs.length ≤ 15) (hp : s.prgLen = 0#22) (hc : s.chrLen = 0#21)
    (hx : s.x = HeaderRegs.unwritten) (hprg : WrittenBelow s.prg 0) (hchr : WrittenBelow s.chr 0)
    (hbuf : ∀ k : Fin 9, s.hbuf.get k = bs[k.val]?) : Inv bs s where
  pc_eq := hpc
  pc_le := by simp only [Config.pcMax]; omega
  fail_iff := by simp [hs, herr]
  prg_written := by simpa [hp] using hprg
  chr_written := by simpa [hc] using hchr
  hdr := fun _ => ⟨by omega, hp, hc, hx, hbuf⟩
  past_header := by simp [hs]
  unwritten := fun _ => hx
  written := fun h16 => by omega
  prg := by simp [hs]
  chr := by simp [hs]
  done := by simp [hs]
  fail_pc := by simp [hs]
  short_header := by simp [herr]
  short_prg := by simp [herr]
  short_chr := by simp [herr]
  prg_bytes := by simp [hp]
  chr_bytes := by simp [hc]

theorem writtenBelow_nil : WrittenBelow [] 0 := ⟨rfl, by simp⟩

theorem inv_restart (s : State) : Inv [] s.restart :=
  inv_of_hdr rfl rfl rfl (by simp) rfl rfl rfl writtenBelow_nil writtenBelow_nil fun k => by
    rw [State.restart_hbuf]; revert k; decide

theorem Inv.withMoments {bs : List Byte} {s : State} (h : Inv bs s) (ps : List Pins) : Inv bs (s.withMoments ps) :=
  { h with }

theorem Inv.advancePc_pc_toNat {bs : List Byte} {s : State} (h : Inv bs s) (b : Byte) :
    s.advancePc.pc.toNat = (bs ++ [b]).length := by
  rw [advancePc_toNat h.pc_ne_allOnes, h.pc_eq, List.length_append, List.length_singleton]

/-- A header byte before the sixteenth (40_header_decoder.md R110). -/
theorem Inv.takeByte_before_sixteenth {bs : List Byte} {s : State} (h : Inv bs s) (hs : s.stage = .hdr)
    (hk : s.pc ≠ 15#23) (b : Byte) : Inv (bs ++ [b]) (s.takeByte b) := by
  obtain ⟨hle, hp, hc, hx, hbuf⟩ := h.hdr hs
  have hlen : bs.length ≠ 15 := fun e => hk (BitVec.eq_of_toNat_eq (by rw [h.pc_eq, e]; rfl))
  have hpc := h.pc_eq
  rw [takeByte_of_hdr hs, acceptHeaderByte_eq_store hk]
  refine inv_of_hdr hs (h.err_eq_none (by simp [hs])) (h.advancePc_pc_toNat b) ?_ hp hc hx ?_ ?_ fun k => ?_
  · rw [List.length_append, List.length_singleton]; omega
  · simpa [hp] using h.prg_written
  · simpa [hc] using h.chr_written
  · rw [storeHeaderByte_get, hpc]
    split
    · next hkl => rw [hkl, List.getElem?_concat_length]
    · next hkl =>
      rw [State.advancePc_hbuf, hbuf k]
      rcases Nat.lt_or_gt_of_ne hkl with hlt | hgt
      · rw [List.getElem?_append_left hlt]
      · rw [List.getElem?_eq_none (by omega), List.getElem?_eq_none (by simp; omega)]

/-- From the ninth byte on the kept bytes are the stream's first nine (R111). -/
theorem Inv.headerBytes_eq {bs : List Byte} {s : State} (h : Inv bs s) (hs : s.stage = .hdr)
    (hlen : 9 ≤ bs.length) : s.headerBytes = firstNine bs := by
  obtain ⟨-, -, -, -, hbuf⟩ := h.hdr hs
  unfold State.headerBytes firstNine
  congr 1
  funext k
  have hk : k.val < bs.length := by omega
  simp [State.hbufByte, hbuf k, hk]

/-- The sixteenth header byte (R110). -/
theorem Inv.pastHeader_takeByte_of_hdr {bs : List Byte} {s : State} (h : Inv bs s) (hs : s.stage = .hdr)
    (hk : s.pc = 15#23) (b : Byte) : PastHeader (bs ++ [b]) (s.takeByte b) := by
  obtain ⟨-, hp, hc, -, -⟩ := h.hdr hs
  have hlen : bs.length = 15 := by rw [← h.pc_eq, hk]; rfl
  have hbytes : s.advancePc.headerBytes = firstNine (bs ++ [b]) := by
    rw [firstNine_append [b] (by omega)]
    exact h.headerBytes_eq hs (by omega)
  have ht : s.takeByte b = (s.advancePc.latchHeader (decodeHeader (firstNine (bs ++ [b])))).setStage
      (afterHeader (decodeHeader (firstNine (bs ++ [b]))).prgRomSize
        (decodeHeader (firstNine (bs ++ [b]))).chrRomSize) := by
    rw [takeByte_of_hdr hs, hk, acceptHeaderByte_last, State.finishHeader, hbytes]
  rw [ht]
  generalize hr : decodeHeader (firstNine (bs ++ [b])) = r
  generalize hg : afterHeader r.prgRomSize r.chrRomSize = g
  exact
    { err := h.err_eq_none (by simp [hs])
      pc := h.advancePc_pc_toNat b
      x := by rw [hr]; rfl
      length := by simp [hp, hc, hlen]
      progress := by rw [hr]; exact regionProgress_of_afterHeader hp hc hg.symm
      prg_written := by simpa [hp] using h.prg_written
      chr_written := by simpa [hc] using h.chr_written
      prg_bytes := by simp [hp]
      chr_bytes := by simp [hc] }

/-- A program-code byte (41_region_reader.md R130). -/
theorem Inv.pastHeader_takeByte_of_prg {bs : List Byte} {s : State} (h : Inv bs s) (hs : s.stage = .prg)
    (b : Byte) : PastHeader (bs ++ [b]) (s.takeByte b) := by
  have hph := h.pastHeader (.inl hs)
  obtain ⟨hlt, hc⟩ := h.prg hs _ hph.x_prgRomSize
  have hlt' := BitVec.lt_def.1 hlt
  have hlen : bs.length = 16 + s.prgLen.toNat := by simpa [hc] using hph.length
  have hsucc : (s.prgLen + 1#22).toNat = s.prgLen.toNat + 1 := by
    have := (decodeHeader (firstNine bs)).prgRomSize.isLt
    rw [BitVec.toNat_add, BitVec.toNat_ofNat]; omega
  rw [takeByte_of_prg hs, acceptPrgByte_eq_setStage]
  exact
    { err := hph.err
      pc := h.advancePc_pc_toNat b
      x := by rw [hph.firstNine_concat]; exact hph.x
      length := by simp [hsucc, hlen, hc]; omega
      progress := by
        rw [hph.firstNine_concat]
        split
        · next hlast =>
          refine regionProgress_of_afterPrg ?_ hc (congrArg afterPrg hph.chrRomSize_eq)
          exact hlast.trans hph.prgRomSize_eq
        · next hmore =>
          refine .inl ⟨hs, BitVec.lt_def.2 (Nat.lt_of_le_of_ne (hsucc.trans_le hlt') fun e => hmore ?_), hc⟩
          exact (BitVec.eq_of_toNat_eq e).trans hph.prgRomSize_eq.symm
      prg_written := by simpa [hsucc] using hph.prg_written.write b
      chr_written := hph.chr_written
      prg_bytes := fun i hi => read_write_append hph.prg_bytes hlen b (by simpa [hsucc] using hi)
      chr_bytes := by simp [hc] }

/-- A graphics byte (R132). -/
theorem Inv.pastHeader_takeByte_of_chr {bs : List Byte} {s : State} (h : Inv bs s) (hs : s.stage = .chr)
    (b : Byte) : PastHeader (bs ++ [b]) (s.takeByte b) := by
  have hph := h.pastHeader (.inr (.inl hs))
  obtain ⟨hp, hlt⟩ := h.chr hs _ _ hph.x_prgRomSize hph.x_chrRomSize
  have hlt' := BitVec.lt_def.1 hlt
  have hlen : bs.length = 16 + (decodeHeader (firstNine bs)).prgRomSize.toNat + s.chrLen.toNat := by
    rw [hph.length, hp]
  have hsucc : (s.chrLen + 1#21).toNat = s.chrLen.toNat + 1 := by
    have := chrBytes_le (decodeHeader (firstNine bs)).chrRomSize
    rw [BitVec.toNat_add, BitVec.toNat_ofNat]; omega
  rw [takeByte_of_chr hs, acceptChrByte_eq_setStage]
  exact
    { err := hph.err
      pc := h.advancePc_pc_toNat b
      x := by rw [hph.firstNine_concat]; exact hph.x
      length := by simp [hsucc, hlen, hp]; omega
      progress := by
        rw [hph.firstNine_concat]
        have hcs := congrArg chrBytes hph.chrRomSize_eq
        split
        · next hlast => exact .inr (.inr ⟨rfl, hp, hlast.trans hcs⟩)
        · next hmore =>
          refine .inr (.inl ⟨hs, hp, BitVec.lt_def.2 (Nat.lt_of_le_of_ne (hsucc.trans_le hlt') fun e => hmore ?_)⟩)
          exact (BitVec.eq_of_toNat_eq e).trans hcs.symm
      prg_written := hph.prg_written
      chr_written := by simpa [hsucc] using hph.chr_written.write b
      prg_bytes := fun i hi => by
        rw [List.getElem?_append_left (by rw [hph.length]; simp at hi; omega)]
        exact hph.prg_bytes i hi
      chr_bytes := by
        rw [hph.firstNine_concat]
        exact fun j hj => read_write_append hph.chr_bytes hlen b (by simpa [hsucc] using hj) }

/-- The step lemma of the invariants for an accepted byte, stage by stage (42_image_assembler.md R149). -/
theorem Inv.takeByte {bs : List Byte} {s : State} (h : Inv bs s) (hs : s.stage.terminal = false) (b : Byte) :
    Inv (bs ++ [b]) (s.takeByte b) := by
  cases hg : s.stage with
  | hdr =>
    by_cases hk : s.pc = 15#23
    · exact (h.pastHeader_takeByte_of_hdr hg hk b).inv
    · exact h.takeByte_before_sixteenth hg hk b
  | prg => exact (h.pastHeader_takeByte_of_prg hg b).inv
  | chr => exact (h.pastHeader_takeByte_of_chr hg b).inv
  | done => simp [hg, Stage.terminal] at hs
  | fail => simp [hg, Stage.terminal] at hs

theorem takeByte_err (s : State) (b : Byte) : (s.takeByte b).err = s.err := by
  cases hs : s.stage with
  | hdr =>
    rw [takeByte_of_hdr hs]
    by_cases hk : s.pc = 15#23
    · rw [hk, acceptHeaderByte_last, State.finishHeader]; simp
    · rw [acceptHeaderByte_eq_store hk]; rfl
  | prg => rw [takeByte_of_prg hs, acceptPrgByte_eq_setStage]; rfl
  | chr => rw [takeByte_of_chr hs, acceptChrByte_eq_setStage]; rfl
  | done => simp [State.takeByte, hs]
  | fail => simp [State.takeByte, hs]

/-- Under the invariants a stage beat answered with a byte is `takeByte`: neither the cursor nor a buffer is full. -/
theorem Inv.stageBeat_of_byte {bs : List Byte} {s : State} {b : Byte} (h : Inv bs s) (ha : Answering s (.byte b)) :
    stageBeat s = .next (s.takeByte b) := by
  have hf := h.fetchNext_of_answering_byte ha
  rcases (State.srcReq_iff s).1 ha.1 with hs | hs | hs
  · rw [stageBeat_hdr hs, takeByte_of_hdr hs]
    exact beat_of_byte _ _ hf
  · have hph := h.pastHeader (.inl hs)
    obtain ⟨hlt, -⟩ := h.prg hs _ hph.x_prgRomSize
    rw [stageBeat_prg hs, takeByte_of_prg hs]
    refine (beat_of_byte _ _ hf).trans (if_pos ?_)
    exact (BitVec.lt_def.1 hlt).trans_le (prgRomSize_le _)
  · have hph := h.pastHeader (.inr (.inl hs))
    obtain ⟨-, hlt⟩ := h.chr hs _ _ hph.x_prgRomSize hph.x_chrRomSize
    rw [stageBeat_chr hs, takeByte_of_chr hs]
    refine (beat_of_byte _ _ hf).trans (if_pos ?_)
    exact (BitVec.lt_def.1 hlt).trans_le (chrBytes_le _)

/-! ### A run over exactly the declared bytes -/

theorem imageLen_eq_sizes (bs : List Byte) :
    imageLen (bs.getD 4 0#8) (bs.getD 5 0#8) = 16 + (decodeHeader (firstNine bs)).prgRomSize.toNat +
      (chrBytes (decodeHeader (firstNine bs)).chrRomSize).toNat := by
  have hp : (decodeHeader (firstNine bs)).prgRomSize = prgszValue (bs.getD 4 0#8) := by
    simp [decodeHeader, decodeHeaderWith, firstNine]
  have hc : (decodeHeader (firstNine bs)).chrRomSize = bs.getD 5 0#8 := by
    simp [decodeHeader, decodeHeaderWith, firstNine, chrszValue]
  rw [hp, hc, prgszValue_toNat, chrBytes_toNat]
  rfl

/-- A region stage is DONE exactly when the accepted bytes are as many as the header declares. -/
theorem PastHeader.done_iff {bs : List Byte} {s : State} (h : PastHeader bs s) :
    s.stage = .done ↔ bs.length = 16 + (decodeHeader (firstNine bs)).prgRomSize.toNat +
      (chrBytes (decodeHeader (firstNine bs)).chrRomSize).toNat := by
  rw [h.length]
  rcases h.progress with ⟨hs, hp, hc⟩ | ⟨hs, hp, hc⟩ | ⟨hs, hp, hc⟩
  · have hlt := BitVec.lt_def.1 hp
    simp only [hs, hc, reduceCtorEq, BitVec.toNat_ofNat, false_iff]
    omega
  · have hlt := BitVec.lt_def.1 hc
    simp only [hs, hp, reduceCtorEq, false_iff]
    omega
  · simp [hs, hp, hc]

/-- The machine is at DONE exactly when it has accepted every byte of an image of the declared length
(42_image_assembler.md R147). -/
theorem Inv.done_iff_of_declared {bs rest : List Byte} {s : State} (h : Inv bs s) (herr : s.err = .none)
    (hlen : (bs ++ rest).length = imageLen ((bs ++ rest).getD 4 0#8) ((bs ++ rest).getD 5 0#8)) :
    s.stage = .done ↔ rest = [] := by
  have hrest : rest = [] ↔ bs.length = (bs ++ rest).length := by simp
  rw [hrest, hlen, imageLen_eq_sizes]
  have hregion (hs : s.stage = .prg ∨ s.stage = .chr ∨ s.stage = .done) :
      s.stage = .done ↔ bs.length = 16 + (decodeHeader (firstNine (bs ++ rest))).prgRomSize.toNat +
        (chrBytes (decodeHeader (firstNine (bs ++ rest))).chrRomSize).toNat := by
    rw [firstNine_append rest (by have := h.past_header hs; omega)]
    exact (h.pastHeader hs).done_iff
  cases hs : s.stage with
  | hdr =>
    obtain ⟨hle, -⟩ := h.hdr hs
    rw [h.pc_eq] at hle
    simp only [reduceCtorEq, false_iff]
    omega
  | prg => exact hs ▸ hregion (.inl hs)
  | chr => exact hs ▸ hregion (.inr (.inl hs))
  | done => exact hs ▸ hregion (.inr (.inr hs))
  | fail => exact absurd herr (h.fail_iff.1 hs)

/-- A moment that presents a byte, wherever a request is outstanding. -/
theorem Inv.moment_of_byte {bs : List Byte} {s : State} (h : Inv bs s) (hs : s.stage.terminal = false) (b : Byte)
    (ps : List Pins) :
    moment (s.withMoments (Pins.byte b :: ps)) = .next ((s.takeByte b).withMoments (Pins.byte b :: ps)) := by
  have ha : Answering (s.withMoments (Pins.byte b :: ps)) (.byte b) :=
    ⟨(srcReq_eq_not_terminal s).trans (by rw [hs]; rfl), rfl⟩
  rw [← takeByte_withMoments, ← (h.withMoments _).stageBeat_of_byte ha]
  rfl

/-- A run over the bytes that are still needed accepts them all, ends at DONE, and leaves what follows them ahead. -/
theorem runFrom_declared {tail : List Pins} (htail : tail ≠ []) (rest : List Byte) {bs : List Byte} {s : State}
    (h : Inv bs s) (herr : s.err = .none)
    (hlen : (bs ++ rest).length = imageLen ((bs ++ rest).getD 4 0#8) ((bs ++ rest).getD 5 0#8)) :
    runFrom (rest.map Pins.byte ++ tail).tail (s.withMoments (rest.map Pins.byte ++ tail)) =
      .next ((s.takeBytes rest).withMoments tail) ∧
    (s.takeBytes rest).stage = .done ∧ (s.takeBytes rest).pc.toNat = (bs ++ rest).length := by
  induction rest generalizing bs s with
  | nil =>
    have hs := (h.done_iff_of_declared herr hlen).2 rfl
    exact ⟨runFrom_of_terminal _ (s := s.withMoments tail) ((terminal_iff_done_or_fail _).2 (.inl hs)), hs,
      h.pc_eq.trans (by simp)⟩
  | cons b rest ih =>
    have hs : s.stage.terminal = false := by
      rw [Bool.eq_false_iff, ne_eq, terminal_iff_done_or_fail, h.done_iff_of_declared herr hlen, h.fail_iff]
      simp [herr]
    have hcat : bs ++ b :: rest = (bs ++ [b]) ++ rest := List.append_cons ..
    rw [hcat] at hlen ⊢
    obtain ⟨hrun, hend⟩ := ih (h.takeByte hs b) ((takeByte_err s b).trans herr) hlen
    obtain ⟨q, qs, hq⟩ := List.exists_cons_of_ne_nil (l := rest.map Pins.byte ++ tail) (by simp [htail])
    rw [hq] at hrun
    rw [List.map_cons, List.cons_append, hq]
    refine ⟨?_, hend⟩
    rw [List.tail_cons, runFrom_cons_of_moment q qs (s := s.withMoments _) hs (h.moment_of_byte hs b _),
      tick_withMoments_cons]
    exact hrun

/-- DECODE of an image of the declared length, whatever follows it: the final machine is `takeBytes` of the image, and
what follows is still ahead. -/
theorem decode_declared (bytes extra : List Byte) (s : State)
    (hlen : bytes.length = imageLen (bytes.getD 4 0#8) (bytes.getD 5 0#8)) :
    exec .decode (s.connect (.canonical true (bytes ++ extra))) =
      .next ((s.restart.takeBytes bytes).withMoments (extra.map Pins.byte ++ [Answer.pins .eos])) ∧
    (s.restart.takeBytes bytes).stage = .done ∧ (s.restart.takeBytes bytes).pc.toNat = bytes.length := by
  rw [connect_canonical_append]
  exact runFrom_declared (by simp) bytes (inv_restart s) rfl hlen

/-- Settles O50: by `decode_declared` both runs end in the machine that has taken `bytes`, and only the moments still
ahead differ. -/
theorem trailingBytesAreIgnored : Obligations.TrailingBytesAreIgnored := by
  unfold Obligations.TrailingBytesAreIgnored
  intro bytes extra s _ hlen
  obtain ⟨hrun, hdone, hpc⟩ := decode_declared bytes [] s hlen
  obtain ⟨hrun', -⟩ := decode_declared bytes extra s hlen
  rw [List.append_nil] at hrun
  exact ⟨_, _, hrun, hrun', sameMachine_refl (s.restart.takeBytes bytes), hdone, hpc⟩

end Sys2Proof.Safety
end

section
/-! Proofs of the encoding family (30_encoding.md): the codes, that no header is illegal, the bits no rule reads, and
the tag. -/

namespace Sys2Proof

/-! ### What decodes -/

/-- What a code stands for is well-formed: each of its operations comes from a row of the table. -/
theorem wellFormed_of_mem_decodeAll {c : Code} {i : Instr} (h : i ∈ decodeAll c) : i.wellFormed = true := by
  obtain ⟨r, -, hr⟩ := List.mem_filterMap.1 h
  cases hd : decodeRow r c with
  | ok j =>
    rw [hd] at hr
    exact Option.some.inj hr ▸ (decodeRow_sound hd).2
  | error e =>
    rw [hd] at hr
    cases hr

/-- A header is matched by all nine field decoders (30_encoding.md R98). -/
theorem decodeAll_hdr16 (h : BitVec 128) :
    decodeAll (.hdr16 h) = [decodeTag h, decodePrgsz h, decodeChrsz h, decodeMirr h, decodePers h, decodeTrnr h,
      decodeMapper h, decodePrgram h, .hdrPad] := rfl

end Sys2Proof

namespace Sys2Proof.Machine

/-! ### The field decoders and the bits they read -/

/-- A field decoder that writes a register always completes, and writes registers only (40_header_decoder.md R112 to
R119). -/
theorem exec_fieldDecoder {h : BitVec 128} {i : Instr} (hi : i ∈ decodeAll (.hdr16 h)) (hpad : i ≠ .hdrPad)
    (s : State) : ∃ x, exec i s = .next (s.setX x) := by
  simp only [decodeAll_hdr16, List.mem_cons, List.not_mem_nil, or_false] at hi
  rcases hi with rfl | rfl | rfl | rfl | rfl | rfl | rfl | rfl | rfl
  on_goal 9 => exact absurd rfl hpad
  all_goals exact ⟨_, rfl⟩

/-- Flag byte A bit 0 as a number (30_encoding.md R89). -/
theorem baseMirroring_code_toNat (a : Byte) : (baseMirroring a).code.toNat = a.toNat % 2 := by
  have hbit : a &&& 0x01#8 = 0x01#8 ↔ a.toNat % 2 = 1 := by
    rw [← BitVec.toNat_inj, BitVec.toNat_and]
    exact (Nat.and_one_is_mod _).congr_left
  unfold baseMirroring
  split
  · next h => exact (hbit.1 (by simpa using h)).symm
  · next h =>
    have hne : ¬ a.toNat % 2 = 1 := fun e => h (by simpa using hbit.2 e)
    exact (Nat.mod_two_ne_one.1 hne).symm

/-- The REFERENCE tests compare a mask above bit 0 with 1 and so never hold (00_scope.md R6). -/
theorem ignoreMirroring_reference (a : Byte) : ignoreMirroring .reference a = false := by
  revert a; decide

theorem trnrValue_reference (a : Byte) : trnrValue .reference a = false := by
  revert a; decide

theorem mirrValue_reference (a : Byte) : mirrValue .reference a = baseMirroring a := by
  simp [mirrValue, ignoreMirroring_reference]

theorem baseMirroring_flip_bit3 (a : Byte) : baseMirroring (a ^^^ 0x08#8) = baseMirroring a := by
  have hbit : (a ^^^ 0x08#8) &&& 0x01#8 = a &&& 0x01#8 := by revert a; decide
  rw [baseMirroring, hbit, baseMirroring]

/-- HDR.MAPPER reads the high nibble of B only (30_encoding.md R85). -/
theorem mapperValue_congr_highNibble {b c : Byte} (a : Byte) (h : b >>> 4 = c >>> 4) :
    mapperValue a b = mapperValue a c := by
  have hmask : ∀ b : Byte, b &&& 0xF0#8 = (b >>> 4) <<< 4 := by decide
  rw [mapperValue, mapperValue, hmask b, hmask c, h]

theorem decodeHeaderWith_set_seven (f g : FlagTest) (h : Vector Byte 9) {b : Byte} (hb : b >>> 4 = h[7] >>> 4) :
    decodeHeaderWith f g (h.set 7 b) = decodeHeaderWith f g h := by
  simp [decodeHeaderWith, mapperValue_congr_highNibble h[6] hb]

/-! ### The HDEC beat -/

/-- The data port decides which byte an answer gives, and nothing of whether it gives one (30_encoding.md R90). -/
theorem presented_setSrcData {p : Pins} {b : Byte} (h : p.presented = .answer (.byte b)) (c : Byte) :
    ({ p with srcData := c } : Pins).presented = .answer (.byte c) := by
  unfold Pins.presented at h ⊢
  split at h
  · cases h
  · next hack =>
    split at h
    · next hkind => simp [hack, hkind]
    · split at h
      · cases h
      · split at h <;> cases h

theorem afterHeader_ne_fail (p : BitVec 22) (c : BitVec 8) : afterHeader p c ≠ .fail := by
  unfold afterHeader
  split
  · simp
  · split <;> simp

/-- From offset 9 on the byte itself is kept nowhere: only the sixteenth does anything (40_header_decoder.md R110). -/
theorem acceptHeaderByte_of_padding {k : BitVec 23} (hk : 9 ≤ k.toNat) (b : Byte) (s : State) :
    s.acceptHeaderByte k b = if k = 15#23 then s.finishHeader else s := by
  have h8 : ¬ k ≤ 8#23 := by rw [BitVec.le_def]; simp; omega
  simp [State.acceptHeaderByte, h8]

end Sys2Proof.Machine

namespace Sys2Proof.Safety

open Sys2Proof Sys2Proof.Machine

/-- An HDEC beat answered with a byte takes it, while the cursor is still in the header. -/
theorem exec_hdec_of_byte {s : State} {b : Byte} (hs : s.stage = .hdr) (ha : Answering s (.byte b))
    (hpc : s.pc.toNat ≤ 15) : exec .hdec s = .next (s.takeByte b) := by
  have hfull : s.pc ≠ BitVec.allOnes 23 := fun h => absurd (h ▸ hpc) (by decide)
  rw [takeByte_of_hdr hs]
  exact beat_of_byte _ _ (fetchNext_of_byte ha.1 ha.2 hfull)

theorem takeByte_stage_ne_fail_of_hdr {s : State} (hs : s.stage = .hdr) (b : Byte) :
    (s.takeByte b).stage ≠ .fail := by
  rw [takeByte_of_hdr hs]
  by_cases hk : s.pc = 15#23
  · rw [hk, acceptHeaderByte_last]
    exact afterHeader_ne_fail _ _
  · rw [acceptHeaderByte_eq_store hk]
    simp [hs]

/-- A byte at offset 9 or later leaves the kept bytes and the moments ahead alone, and its value decides nothing
(30_encoding.md R92). -/
theorem takeByte_of_padding {s : State} (hs : s.stage = .hdr) (hk : 9 ≤ s.pc.toNat) (b c : Byte) :
    s.takeByte c = s.takeByte b ∧ (s.takeByte b).hbuf = s.hbuf ∧ (s.takeByte b).feed = s.feed := by
  simp only [takeByte_of_hdr hs, acceptHeaderByte_of_padding hk, true_and]
  split <;> simp [State.finishHeader]

/-- HDEC at offset 9 to 15 with another byte on the ports: the same next state, apart from the ports. -/
theorem exec_hdec_setPins_of_padding {s : State} {p : Pins} {c : Byte} (hs : s.stage = .hdr) (hk : 9 ≤ s.pc.toNat)
    (hpc : s.pc.toNat ≤ 15) (hreq : s.srcReq = true) (hp : p.presented = .answer (.byte c)) (b : Byte) :
    exec .hdec { s with pins := p } = .next { s.takeByte b with pins := p } := by
  obtain ⟨hbyte, -, hfeed⟩ := takeByte_of_padding hs hk b c
  calc exec .hdec { s with pins := p }
      = .next ((s.withMoments (p :: s.feed)).takeByte c) :=
        exec_hdec_of_byte (s := { s with pins := p }) hs ⟨hreq, hp⟩ hpc
    _ = .next ((s.takeByte b).withMoments (p :: (s.takeByte b).feed)) := by
        rw [takeByte_withMoments, hbyte, hfeed]

end Sys2Proof.Safety

namespace Sys2Proof.Machine

/-! ### The tag -/

/-- An observation with another format tag in the header of its image, if it has one. -/
def Obs.retag (tag : BitVec 32) : Obs → Obs
  | .ok img => .ok { img with header := { img.header with formatTag := tag } }
  | .error e => .error e
  | .busy => .busy

/-- The header bytes from offset 4 on decide every field but the tag (40_header_decoder.md R112). -/
theorem decodeHeader_congr_past_tag {g h : Vector Byte 9} (hgh : ∀ k : Fin 9, 4 ≤ k.val → g.get k = h.get k) :
    decodeHeader g = { decodeHeader h with formatTag := tagValue g[0] g[1] g[2] g[3] } := by
  have h4 : g[4] = h[4] := hgh 4 (by decide)
  have h5 : g[5] = h[5] := hgh 5 (by decide)
  have h6 : g[6] = h[6] := hgh 6 (by decide)
  have h7 : g[7] = h[7] := hgh 7 (by decide)
  have h8 : g[8] = h[8] := hgh 8 (by decide)
  simp [decodeHeader, decodeHeaderWith, h4, h5, h6, h7, h8]

theorem drop_congr_of_le {l m : List Byte} {a b : Nat} (h : m.drop a = l.drop a) (hab : a ≤ b) :
    m.drop b = l.drop b := by
  rw [← Nat.add_sub_of_le hab, ← List.drop_drop, h, List.drop_drop]

/-- The headers of two streams that differ in the tag only. -/
theorem decodeHeader_firstNine_congr {l m : List Byte} (h : m.drop 4 = l.drop 4) :
    decodeHeader (firstNine m) =
      { decodeHeader (firstNine l) with formatTag := (decodeHeader (firstNine m)).formatTag } := by
  refine decodeHeader_congr_past_tag fun k hk => ?_
  have hget : m[k.val]? = l[k.val]? := by
    rw [← List.head?_drop, ← List.head?_drop, drop_congr_of_le h hk]
  simp [firstNine, Vector.get_eq_getElem, List.getD_eq_getElem?_getD, hget]

/-- Two streams that differ in the tag only decode alike, case by case of the whole-stream function
(42_image_assembler.md R145). -/
theorem decodeStream_congr_past_tag (rd : Bool) {l m : List Byte} (hlen : m.length = l.length)
    (hdrop : m.drop 4 = l.drop 4) :
    decodeStream rd m = { decodeStream rd l with
      obs := (decodeStream rd l).obs.retag (decodeHeader (firstNine m)).formatTag } := by
  have hh := decodeHeader_firstNine_congr hdrop
  have hp : (decodeHeader (firstNine m)).prgRomSize = (decodeHeader (firstNine l)).prgRomSize := by rw [hh]
  have hc : (decodeHeader (firstNine m)).chrRomSize = (decodeHeader (firstNine l)).chrRomSize := by rw [hh]
  cases rd with
  | false => rw [decodeStream_unreadable, decodeStream_unreadable]; rfl
  | true =>
    rcases Nat.lt_or_ge l.length 16 with hhdr | hhdr
    · rw [decodeStream_shortHeader hhdr, decodeStream_shortHeader (hlen ▸ hhdr), hlen]; rfl
    rcases Nat.lt_or_ge l.length (16 + (decodeHeader (firstNine l)).prgRomSize.toNat) with hprg | hprg
    · rw [decodeStream_shortPrg hhdr hprg, decodeStream_shortPrg (by omega) (by rw [hp]; omega), hlen]; rfl
    rcases Nat.lt_or_ge l.length (16 + (decodeHeader (firstNine l)).prgRomSize.toNat +
      (decodeHeader (firstNine l)).chrRomSize.toNat * 0x2000) with hchr | hchr
    · rw [decodeStream_shortChr hprg hchr, decodeStream_shortChr (by rw [hp]; omega) (by rw [hp, hc]; omega), hlen]
      rfl
    · rw [decodeStream_whole hchr, decodeStream_whole (by rw [hp, hc]; omega), hp, hc,
        drop_congr_of_le hdrop (by omega), drop_congr_of_le hdrop (by omega)]
      simp only [Obs.retag, ← hh]

end Sys2Proof.Machine

namespace Sys2Proof.Safety

open Sys2Proof Sys2Proof.Machine

/-! ### The obligations -/

/-- Settles O5: the table of codes, row by row. -/
theorem stageCodesSelectTheirOperations : Obligations.StageCodesSelectTheirOperations :=
  ⟨rfl, rfl, rfl, rfl, rfl, rfl, rfl, rfl, rfl, rfl, rfl, rfl, rfl⟩

/-- Settles O55: the tables row by row, and bit 0 of flag byte A as the code of the base mirroring. -/
theorem codesOfTheEnumerations : Obligations.CodesOfTheEnumerations :=
  ⟨⟨rfl, rfl, rfl, rfl, rfl, rfl, rfl⟩, ⟨rfl, rfl, rfl, baseMirroring_code_toNat⟩,
    fun _ _ => ⟨rfl, rfl, rfl, rfl⟩⟩

/-- Settles O27: every operation of a header comes from a row and is well-formed, a field decoder writes registers
only, and HDEC with a byte takes it. -/
theorem noHeaderIsIllegal : Obligations.NoHeaderIsIllegal := by
  unfold Obligations.NoHeaderIsIllegal
  refine ⟨fun h => ⟨decodeAll_hdr16 h, fun i hi => ⟨wellFormed_of_mem_decodeAll hi, fun s hpad => ?_⟩⟩,
    fun s b hs ha hpc => ⟨_, exec_hdec_of_byte hs ha hpc, takeByte_err s b, takeByte_stage_ne_fail_of_hdr hs b⟩⟩
  obtain ⟨x, hx⟩ := exec_fieldDecoder hi hpad s
  exact ⟨_, hx, s.setX_err x, s.setX_stage x⟩

/-- Settles O28: HDR.MAPPER reads the high nibble of B only, the REFERENCE tests never hold, and the beats at offsets
9 to 15 do not look at their byte. -/
theorem ignoredBitsChangeNothing : Obligations.IgnoredBitsChangeNothing := by
  unfold Obligations.IgnoredBitsChangeNothing
  refine ⟨fun f g h _ hb => decodeHeaderWith_set_seven f g h hb, fun a => ⟨?_, ?_⟩,
    fun s b c hs hk hpc ha => ⟨_, exec_hdec_of_byte hs ha hpc, ?_, ?_⟩⟩
  · rw [mirrValue_reference, mirrValue_reference, baseMirroring_flip_bit3]
  · rw [trnrValue_reference, trnrValue_reference]
  · exact exec_hdec_setPins_of_padding hs hk hpc ha.1 (presented_setSrcData ha.2 c) b
  · obtain ⟨-, hhbuf, -⟩ := takeByte_of_padding hs hk b b
    exact hhbuf

/-- Settles O29: every field but the tag comes from the bytes past it, and so does every case of the whole-stream
function. -/
theorem tagIsNotValidated : Obligations.TagIsNotValidated := by
  unfold Obligations.TagIsNotValidated
  refine ⟨fun h g => decodeHeader_congr_past_tag, fun rd l m hlen hdrop => ?_⟩
  rw [decodeStream_congr_past_tag rd hlen hdrop]
  exact ⟨rfl, rfl, rfl⟩

end Sys2Proof.Safety
end

section
/-! Proofs of the Header Decoder family (40_header_decoder.md R112 to R119): what each field decoder writes, as a
number or bit by bit. -/

namespace Sys2Proof.Machine

/-! ### The tag -/

theorem append_byte_toNat {n : Nat} (x : BitVec n) (b : Byte) : (x ++ b).toNat = 2 ^ 8 * x.toNat + b.toNat := by
  rw [BitVec.toNat_append, ← Nat.shiftLeft_add_eq_or_of_lt b.isLt, Nat.shiftLeft_eq, Nat.mul_comm]

/-- The raw copy as a number, byte 0 lowest (40_header_decoder.md R112). -/
theorem tagValue_toNat (t0 t1 t2 t3 : Byte) : (tagValue t0 t1 t2 t3).toNat =
    t0.toNat + 2 ^ 8 * t1.toNat + 2 ^ 16 * t2.toNat + 2 ^ 24 * t3.toNat := by
  rw [tagValue, append_byte_toNat, append_byte_toNat, append_byte_toNat]
  omega

/-! ### The presence signals -/

/-- A byte is above zero exactly when it is not zero. -/
theorem decide_toNat_pos (u : Byte) : decide (0 < u.toNat) = (u != 0#8) := by
  rw [Bool.eq_iff_iff, decide_eq_true_iff, bne_iff_ne, Nat.pos_iff_ne_zero, ne_eq, ne_eq, ← BitVec.toNat_inj]
  rfl

theorem chrPresent_eq_bne (u : Byte) : chrPresent u = (u != 0#8) := by
  rw [← decide_toNat_pos, Bool.eq_iff_iff, chrPresent_iff, decide_eq_true_iff]

theorem prgPresent_prgszValue (u : Byte) : prgPresent (prgszValue u) = (u != 0#8) := by
  rw [← decide_toNat_pos, Bool.eq_iff_iff, prgPresent_iff, prgszValue_toNat, decide_eq_true_iff]
  omega

/-! ### A byte masked with one bit -/

theorem twoPow_ne_zero_of_lt {k : Nat} (hk : k < 8) : BitVec.twoPow 8 k ≠ 0#8 := by
  revert k; decide

theorem and_twoPow_bne_zero (a : Byte) {k : Nat} (hk : k < 8) : (a &&& BitVec.twoPow 8 k != 0#8) = a.getLsbD k := by
  rw [BitVec.and_twoPow]
  cases a.getLsbD k with
  | true => simpa using twoPow_ne_zero_of_lt hk
  | false => rfl

theorem and_twoPow_beq_twoPow (a : Byte) {k : Nat} (hk : k < 8) :
    (a &&& BitVec.twoPow 8 k == BitVec.twoPow 8 k) = a.getLsbD k := by
  rw [BitVec.and_twoPow]
  cases a.getLsbD k with
  | true => simp
  | false => simpa using (twoPow_ne_zero_of_lt hk).symm

/-! ### The flags of byte A, bit by bit -/

theorem ignoreMirroring_intended (a : Byte) : ignoreMirroring .intended a = a.getLsbD 3 :=
  and_twoPow_bne_zero a (k := 3) (by decide)

theorem baseMirroring_eq_ite (a : Byte) :
    baseMirroring a = if a.getLsbD 0 then .vertical else .horizontal := by
  rw [baseMirroring, ← and_twoPow_beq_twoPow a (k := 0) (by decide)]
  rfl

theorem mirrValue_intended (a : Byte) :
    mirrValue .intended a = if a.getLsbD 3 then .unspecified else baseMirroring a := by
  rw [mirrValue, ignoreMirroring_intended]

theorem persValue_eq_getLsbD (a : Byte) : persValue a = a.getLsbD 1 :=
  and_twoPow_beq_twoPow a (k := 1) (by decide)

theorem trnrValue_intended (a : Byte) : trnrValue .intended a = a.getLsbD 2 :=
  and_twoPow_bne_zero a (k := 2) (by decide)

/-- The trainer bit decides the trainer flag and nothing else of the record (40_header_decoder.md R117). -/
theorem decodeHeader_flip_trainerBit (h : Vector Byte 9) : decodeHeader (h.set 6 (h[6] ^^^ 0x04#8)) =
    { decodeHeader h with hasTrainer := !(decodeHeader h).hasTrainer } := by
  have hmirr : mirrValue .intended (h[6] ^^^ 0x04#8) = mirrValue .intended h[6] := by
    simp [mirrValue_intended, baseMirroring_eq_ite]
  have hpers : persValue (h[6] ^^^ 0x04#8) = persValue h[6] := by simp [persValue_eq_getLsbD]
  have htrnr : trnrValue .intended (h[6] ^^^ 0x04#8) = !trnrValue .intended h[6] := by simp [trnrValue_intended]
  have hmapper : mapperValue (h[6] ^^^ 0x04#8) h[7] = mapperValue h[6] h[7] := by
    simp [mapperValue, BitVec.ushiftRight_xor_distrib]
  simp [decodeHeader, decodeHeaderWith, Config.ignmirrTest, Config.trainerTest, hmirr, hpers, htrnr, hmapper]

/-! ### The mapper number -/

theorem highNibble_toNat (b : Byte) : (b &&& 0xF0#8).toNat = b.toNat / 16 * 16 := by
  revert b; decide

/-- The two summands of HDR.MAPPER share no bit (40_header_decoder.md R118). -/
theorem highNibble_and_lowered (a b : Byte) : (b &&& 0xF0#8) &&& (a >>> 4) = 0#8 := by
  have hlow : ∀ a : Byte, 0xF0#8 &&& (a >>> 4) = 0#8 := by decide
  rw [BitVec.and_assoc, hlow, BitVec.and_zero]

theorem mapperValue_eq_or (a b : Byte) : mapperValue a b = (b &&& 0xF0#8) ||| (a >>> 4) :=
  BitVec.add_eq_or_of_and_eq_zero _ _ (highNibble_and_lowered a b)

theorem mapperValue_toNat (a b : Byte) : (mapperValue a b).toNat = (b &&& 0xF0#8).toNat + a.toNat / 16 := by
  rw [mapperValue, BitVec.toNat_add_of_and_eq_zero (highNibble_and_lowered a b), BitVec.toNat_ushiftRight,
    Nat.shiftRight_eq_div_pow]

/-! ### Header byte 8 -/

theorem decodeHeader_set_eight (h : Vector Byte 9) (u : Byte) :
    decodeHeader (h.set 8 u) = { decodeHeader h with prgRamSize := u } := by
  simp [decodeHeader, decodeHeaderWith, prgramValue]

theorem decodeHeader_firstNine_prgRomSize (bytes : List Byte) :
    (decodeHeader (firstNine bytes)).prgRomSize = prgszValue (bytes.getD 4 0#8) := by
  simp [decodeHeader, decodeHeaderWith, firstNine]

theorem decodeHeader_firstNine_chrRomSize (bytes : List Byte) :
    (decodeHeader (firstNine bytes)).chrRomSize = chrszValue (bytes.getD 5 0#8) := by
  simp [decodeHeader, decodeHeaderWith, firstNine]

/-- Where a run ends, and after how many beats, is decided by the length of the stream and its two size bytes
(42_image_assembler.md R145). -/
theorem decodeStream_pc_beats_congr (rd : Bool) {l m : List Byte} (hlen : m.length = l.length)
    (hprg : m.getD 4 0#8 = l.getD 4 0#8) (hchr : m.getD 5 0#8 = l.getD 5 0#8) :
    (decodeStream rd m).pc = (decodeStream rd l).pc ∧ (decodeStream rd m).beats = (decodeStream rd l).beats := by
  simp only [decodeStream, apply_ite RunEnd.pc, apply_ite RunEnd.beats, decodeHeader_firstNine_prgRomSize,
    decodeHeader_firstNine_chrRomSize, hlen, hprg, hchr, and_self]

end Sys2Proof.Machine

namespace Sys2Proof.Safety

open Sys2Proof Sys2Proof.Machine

/-- The beat that takes the sixteenth byte leaves the cursor at offset 16, whatever the record (40_header_decoder.md
R117, 20_memory.md R64). -/
theorem exec_hdec_last_pc {s : State} {b : Byte} (hs : s.stage = .hdr) (hpc : s.pc = 15#23)
    (ha : Answering s (.byte b)) : ∃ t, exec .hdec s = .next t ∧ t.pc = 16#23 := by
  have hle : s.pc.toNat ≤ 15 := by rw [hpc]; decide
  refine ⟨_, exec_hdec_of_byte hs ha hle, ?_⟩
  rw [takeByte_of_hdr hs, hpc, acceptHeaderByte_last]
  simp [State.finishHeader, hpc]

/-! ### The obligations -/

/-- Settles O16: the copy as a number, and each byte of it as a quotient. -/
theorem tagIsCopiedRaw : Obligations.TagIsCopiedRaw := by
  unfold Obligations.TagIsCopiedRaw
  intro t0 t1 t2 t3 s
  have htag := tagValue_toNat t0 t1 t2 t3
  have h0 := t0.isLt
  have h1 := t1.isLt
  have h2 := t2.isLt
  refine ⟨tagValue t0 t1 t2 t3, rfl, htag, ?_, ?_, ?_, ?_⟩
  all_goals
    apply BitVec.eq_of_toNat_eq
    rw [tagByte, BitVec.extractLsb'_toNat, htag]
    omega

/-- Settles O17: the product does not overflow, so its low 14 bits are zero and the next eight are the byte. -/
theorem prgSizeIsTheByteTimes4000 : Obligations.PrgSizeIsTheByteTimes4000 := by
  unfold Obligations.PrgSizeIsTheByteTimes4000
  intro u s
  have hsize := prgszValue_toNat u
  refine ⟨prgszValue u, rfl, hsize, BitVec.eq_of_toNat_eq ?_, BitVec.eq_of_toNat_eq ?_, prgPresent_prgszValue u⟩
  · rw [BitVec.extractLsb'_toNat, hsize, BitVec.toNat_zero]
    omega
  · have hu := u.isLt
    rw [BitVec.extractLsb'_toNat, hsize]
    omega

/-- Settles O18: the register holds the byte itself; `chrBytes` multiplies without overflow. -/
theorem chrSizeIsTheUnitCount : Obligations.ChrSizeIsTheUnitCount :=
  fun u _ => ⟨rfl, chrBytes_toNat u, chrPresent_eq_bne u⟩

/-- Settles O19: by bit 3 under INTENDED; under REFERENCE the test never holds and bit 0 is left. -/
theorem mirroringFollowsBits0And3 : Obligations.MirroringFollowsBits0And3 := by
  unfold Obligations.MirroringFollowsBits0And3
  refine fun a s => ⟨rfl, fun h3 => ?_, fun h3 => ?_, ?_, rfl⟩
  · rw [mirrValue_intended, if_pos h3]
  · rw [mirrValue_intended, h3, ← baseMirroring_eq_ite]
    rfl
  · rw [mirrValue_reference, baseMirroring_eq_ite]

/-- Settles O20: the flag is bit 1. -/
theorem persistentStorageIsBit1 : Obligations.PersistentStorageIsBit1 := by
  unfold Obligations.PersistentStorageIsBit1
  intro a s
  rw [← persValue_eq_getLsbD]
  rfl

/-- Settles O21: the flag is bit 2 under INTENDED, no other field reads that bit, and the sixteenth byte leaves the
cursor at 16. -/
theorem trainerIsBit2 : Obligations.TrainerIsBit2 := by
  unfold Obligations.TrainerIsBit2
  refine fun a s => ⟨?_, trnrValue_intended a, trnrValue_reference a, rfl, decodeHeader_flip_trainerBit,
    fun _ hs hpc ha => exec_hdec_last_pc hs hpc ha⟩
  rw [← trnrValue_intended]
  rfl

/-- Settles O22: the summands share no bit, so the sum is their OR and its nibbles are the two high nibbles. -/
theorem mapperJoinsTheHighNibbles : Obligations.MapperJoinsTheHighNibbles := by
  unfold Obligations.MapperJoinsTheHighNibbles
  intro a b s
  have hm := mapperValue_toNat a b
  have hb := highNibble_toNat b
  have hlt := a.isLt
  refine ⟨mapperValue a b, rfl, hm, mapperValue_eq_or a b, ?_, ?_⟩
  all_goals
    apply BitVec.eq_of_toNat_eq
    rw [BitVec.extractLsb'_toNat, BitVec.extractLsb'_toNat, hm, hb]
    omega

/-- Settles O23: byte 8 is read by one field only, and the end of a run is decided by the stream's length and its
bytes 4 and 5. -/
theorem prgRamSizeIsTheRawByte : Obligations.PrgRamSizeIsTheRawByte := by
  unfold Obligations.PrgRamSizeIsTheRawByte
  refine fun u s => ⟨rfl, fun h => decodeHeader_set_eight h u, fun rd bytes => ?_⟩
  have hset : ∀ k, k ≠ 8 → (bytes.set 8 u).getD k 0#8 = bytes.getD k 0#8 := fun k hk => by
    rw [List.getD_eq_getElem?_getD, List.getElem?_set_ne hk.symm, ← List.getD_eq_getElem?_getD]
  exact decodeStream_pc_beats_congr rd List.length_set (hset 4 (by decide)) (hset 5 (by decide))

end Sys2Proof.Safety
end

section
/-! Proof of the region reader family (41_region_reader.md R134). Two machines that differ only in the buffers and in
the byte on the data port stay so related through a beat (`State.withBytes`); the beat writes the second machine's own
byte to the one address its length counter names, or writes nothing. -/

namespace Sys2Proof.Machine

/-! ### Another byte on the data port and other buffer contents -/

/-- What a source that differs in the data byte alone presents. -/
def Presented.withByte (d : Byte) : Presented → Presented
  | .answer (.byte _) => .answer (.byte d)
  | p => p

/-- `s` with another byte on the data port and other buffer contents. -/
def State.withBytes (s : State) (d : Byte) (m n : Memory) : State :=
  { s with pins := { s.pins with srcData := d }, prg := m, chr := n }

/-- What `Next()` gives with `d` on the data port and other buffer contents. -/
def Fetched.withBytes (d : Byte) (m n : Memory) : Fetched → Fetched
  | .byte _ t => .byte d (t.withBytes d m n)
  | f => f

/-- The data port decides the byte of an answer and nothing else that is presented (30_encoding.md R90). -/
theorem presented_withByte (p : Pins) (d : Byte) :
    ({ p with srcData := d } : Pins).presented = p.presented.withByte d := by
  unfold Pins.presented
  split
  · rfl
  · split
    · rfl
    · split
      · rfl
      · split <;> rfl

/-- `Next()` reads neither buffer, and of the data port only the byte it gives (20_memory.md R56). -/
theorem fetchNext_withBytes (s : State) (d : Byte) (m n : Memory) :
    (s.withBytes d m n).fetchNext = s.fetchNext.withBytes d m n := by
  have hreq : (s.withBytes d m n).srcReq = s.srcReq := rfl
  have hpres : (s.withBytes d m n).pins.presented = s.pins.presented.withByte d := presented_withByte s.pins d
  have hpc : (s.withBytes d m n).pc = s.pc := rfl
  unfold State.fetchNext
  rw [hreq, hpres, hpc]
  split
  · rfl
  · cases s.pins.presented with
    | nothing => rfl
    | notAnAnswer => rfl
    | answer a =>
      cases a with
      | eos => rfl
      | unreadable => rfl
      | byte b =>
        dsimp only [Presented.withByte]
        split <;> rfl

/-- A beat that accepts a byte accepts the other machine's byte there; every other beat that gives a next state leaves
both machines' buffers alone. -/
theorem beat_withBytes {short : ErrKind} {onByte : Byte → State → Result} {s u : State} (d : Byte) (m n : Memory)
    (h : beat short onByte s = .next u) :
    (∃ b, onByte b s.advancePc = .next u ∧
        beat short onByte (s.withBytes d m n) = onByte d (s.withBytes d m n).advancePc) ∨
      beat short onByte (s.withBytes d m n) = .next (u.withBytes d m n) := by
  have hf := fetchNext_withBytes s d m n
  rcases beat_cases h with ⟨b, hb, ho⟩ | ⟨hb, rfl⟩ | ⟨hb, rfl⟩ | ⟨hb, rfl⟩ <;> rw [hb] at hf
  · exact .inl ⟨b, ho, beat_of_byte _ _ hf⟩
  · exact .inr (beat_of_eos _ _ hf)
  · exact .inr (beat_of_unreadable _ _ hf)
  · exact .inr (beat_of_noBeat _ _ hf)

/-! ### The region beats -/

/-- Whatever program-code byte arrives, the length and the stage go the same way (41_region_reader.md R130). -/
theorem acceptPrgByte_withBytes (s : State) (b d : Byte) (m n : Memory) :
    (s.withBytes d m n).acceptPrgByte d = (s.acceptPrgByte b).withBytes d (m.write s.prgLen.toNat d) n := by
  rw [acceptPrgByte_eq_setStage, acceptPrgByte_eq_setStage]
  rfl

/-- Whatever graphics byte arrives, the length and the stage go the same way (41_region_reader.md R132). -/
theorem acceptChrByte_withBytes (s : State) (b d : Byte) (m n : Memory) :
    (s.withBytes d m n).acceptChrByte d = (s.acceptChrByte b).withBytes d m (n.write s.chrLen.toNat d) := by
  rw [acceptChrByte_eq_setStage, acceptChrByte_eq_setStage]
  rfl

/-- RDPRG on the two machines: at most the one program-code cell is written. -/
theorem execRdprg_withBytes {s u : State} (d : Byte) (m n : Memory) (h : execRdprg s = .next u) :
    ∃ m', (m' = m ∨ m' = m.write s.prgLen.toNat d) ∧
      execRdprg (s.withBytes d m n) = .next (u.withBytes d m' n) := by
  rcases beat_withBytes d m n h with ⟨b, ho, hbeat⟩ | hbeat
  · split at ho
    · next hlen =>
      rw [← Host.Outcome.next.inj ho]
      refine ⟨_, .inr rfl, hbeat.trans ((if_pos hlen).trans ?_)⟩
      exact congrArg _ (acceptPrgByte_withBytes s.advancePc b d m n)
    · cases ho
  · exact ⟨m, .inl rfl, hbeat⟩

/-- RDCHR on the two machines: at most the one graphics cell is written. -/
theorem execRdchr_withBytes {s u : State} (d : Byte) (m n : Memory) (h : execRdchr s = .next u) :
    ∃ n', (n' = n ∨ n' = n.write s.chrLen.toNat d) ∧
      execRdchr (s.withBytes d m n) = .next (u.withBytes d m n') := by
  rcases beat_withBytes d m n h with ⟨b, ho, hbeat⟩ | hbeat
  · split at ho
    · next hlen =>
      rw [← Host.Outcome.next.inj ho]
      refine ⟨_, .inr rfl, hbeat.trans ((if_pos hlen).trans ?_)⟩
      exact congrArg _ (acceptChrByte_withBytes s.advancePc b d m n)
    · cases ho
  · exact ⟨n, .inl rfl, hbeat⟩

/-- Where a buffer that took at most one byte reads differently, that byte was stored. -/
theorem read_of_changed {m m' : Memory} {k a : Nat} {d : Byte} (h : m' = m ∨ m' = m.write k d)
    (hne : m'.read a ≠ m.read a) : a = k ∧ m'.read a = some d := by
  rcases h with rfl | rfl
  · exact absurd rfl hne
  · have hak : a = k := by_contra fun hak => hne (Memory.read_write_other m d hak)
    exact ⟨hak, hak ▸ Memory.read_write_same m k d⟩

/-- Without a reset a step is the stage's beat, then the next levels of the ports. -/
theorem step_of_stageBeat {s u : State} (hr : s.pins.rst = false) (h : stageBeat s = .next u) :
    step s = .next u.tick := by
  rw [step_eq_moment]
  simp [moment, hr, h]

end Sys2Proof.Machine

namespace Sys2Proof.Safety

open Sys2Proof Sys2Proof.Machine

/-- Settles O34: in either stage the beat keeps the two machines alike but for the buffers, of which it writes one
cell at most, and the next levels of the ports are the same for both. -/
theorem regionBytesDecideNothing : Obligations.RegionBytesDecideNothing := by
  unfold Obligations.RegionBytesDecideNothing
  intro s d m n hs hr t ht
  rcases step_cases ht with ⟨hrst, -⟩ | ⟨-, u, hu, rfl⟩
  · rw [hr] at hrst
    cases hrst
  rcases hs with hs | hs
  · rw [stageBeat_prg hs] at hu
    obtain ⟨m', hm', hbeat⟩ := execRdprg_withBytes d m n hu
    have hbeat' := (stageBeat_prg (s := s.withBytes d m n) hs).trans hbeat
    refine ⟨(u.withBytes d m' n).tick, step_of_stageBeat hr hbeat', rfl, ?_, ?_⟩
    · exact fun a ha => ⟨hs, read_of_changed hm' ha⟩
    · exact fun a ha => absurd rfl ha
  · rw [stageBeat_chr hs] at hu
    obtain ⟨n', hn', hbeat⟩ := execRdchr_withBytes d m n hu
    have hbeat' := (stageBeat_chr (s := s.withBytes d m n) hs).trans hbeat
    refine ⟨(u.withBytes d m n').tick, step_of_stageBeat hr hbeat', rfl, ?_, ?_⟩
    · exact fun a ha => absurd rfl ha
    · exact fun a ha => ⟨hs, read_of_changed hn' ha⟩

end Sys2Proof.Safety
end

section
/-! Proofs of the Image Assembler family (42_image_assembler.md). What an answer does to the machine is said once
(`State.takeAnswer`): a step is a reset, a taken answer or a wait (`step_cases`, `stageBeat_cases`). The invariants,
the stage table and the run over a whole stream follow from it. -/

namespace Sys2Proof.Machine

open Sys2Proof.Safety

/-! ### One answer, apart from the ports that bring it -/

/-- The error a stage raises when the source ends in it (60_exceptions.md R161 to R163); the terminal stages ask for
nothing and raise nothing. -/
def Stage.shortError : Stage → ErrKind
  | .hdr => .truncatedHeader
  | .prg => .truncatedRegionPrg
  | .chr => .truncatedRegionChr
  | .done => .none
  | .fail => .none

theorem Stage.shortError_eq_truncatedHeader (g : Stage) : g.shortError = .truncatedHeader → g = .hdr := by
  cases g <;> decide

theorem Stage.shortError_eq_truncatedRegionPrg (g : Stage) : g.shortError = .truncatedRegionPrg → g = .prg := by
  cases g <;> decide

theorem Stage.shortError_eq_truncatedRegionChr (g : Stage) : g.shortError = .truncatedRegionChr → g = .chr := by
  cases g <;> decide

theorem shortError_ne_none {s : State} (h : s.srcReq = true) : s.stage.shortError ≠ .none := by
  rcases (State.srcReq_iff s).1 h with hs | hs | hs <;> rw [hs] <;> decide

/-- What the machine does with one answer while it asks for a byte; `stageBeat_cases` and
`Inv.step_of_answering` tie it to the model. -/
def State.takeAnswer (s : State) : Answer → State
  | .byte b => s.takeByte b
  | .eos => s.raise s.stage.shortError
  | .unreadable => s.raise .unreadableSource

/-- The bytes an answer adds to those accepted. -/
def Answer.bytes : Answer → List Byte
  | .byte b => [b]
  | .eos => []
  | .unreadable => []

theorem not_answering_of_terminal {s : State} (h : s.stage.terminal = true) (a : Answer) : ¬ Answering s a :=
  fun ha => Bool.false_ne_true ((srcReq_of_terminal h).symm.trans ha.1)

/-- Where a byte is asked for, the stage's beat is one `beat` with the error of that stage, and a byte it goes on with
is taken (42_image_assembler.md R156). -/
theorem stageBeat_eq_beat {s : State} (h : s.srcReq = true) :
    ∃ onByte, stageBeat s = beat s.stage.shortError onByte s ∧
      ∀ b t, onByte b s.advancePc = .next t → t = s.takeByte b := by
  rcases (State.srcReq_iff s).1 h with hs | hs | hs
  · refine ⟨_, (stageBeat_hdr hs).trans (by rw [hs]; rfl), fun b t ho => ?_⟩
    rw [takeByte_of_hdr hs, ← Host.Outcome.next.inj ho]
  · refine ⟨_, (stageBeat_prg hs).trans (by rw [hs]; rfl), fun b t ho => ?_⟩
    split at ho
    · rw [takeByte_of_prg hs, ← Host.Outcome.next.inj ho]
    · cases ho
  · refine ⟨_, (stageBeat_chr hs).trans (by rw [hs]; rfl), fun b t ho => ?_⟩
    split at ho
    · rw [takeByte_of_chr hs, ← Host.Outcome.next.inj ho]
    · cases ho

theorem srcReq_of_not_terminal {s : State} (h : s.stage.terminal = false) : s.srcReq = true := by
  rw [srcReq_eq_not_terminal, h]; rfl

/-- A stage beat that gives a next state took an answer or, with none given, did nothing. -/
theorem stageBeat_cases {s u : State} (h : stageBeat s = .next u) :
    (∃ a, Answering s a ∧ u = s.takeAnswer a) ∨ ((∀ a, ¬ Answering s a) ∧ u = s) := by
  cases hs : s.stage.terminal with
  | true =>
    rw [stageBeat_terminal hs] at h
    exact .inr ⟨not_answering_of_terminal hs, (Host.Outcome.next.inj h).symm⟩
  | false =>
    obtain ⟨onByte, hbeat, hbyte⟩ := stageBeat_eq_beat (srcReq_of_not_terminal hs)
    rcases beat_answer_cases (hbeat.symm.trans h) with ⟨b, ha, -, ho⟩ | ⟨ha, hu⟩ | ⟨ha, hu⟩ | hno
    · exact .inl ⟨.byte b, ha, hbyte b u ho⟩
    · exact .inl ⟨.eos, ha, hu⟩
    · exact .inl ⟨.unreadable, ha, hu⟩
    · exact .inr hno

theorem eq_takeAnswer_of_stageBeat {s u : State} {a : Answer} (h : stageBeat s = .next u) (ha : Answering s a) :
    u = s.takeAnswer a := by
  rcases stageBeat_cases h with ⟨a', ha', rfl⟩ | ⟨hno, -⟩
  · rw [answering_inj ha ha']
  · exact absurd ha (hno a)

theorem eq_self_of_stageBeat {s u : State} (h : stageBeat s = .next u) (hno : ∀ a, ¬ Answering s a) : u = s := by
  rcases stageBeat_cases h with ⟨a, ha, -⟩ | ⟨-, rfl⟩
  · exact absurd ha (hno a)
  · rfl

theorem stageBeat_of_eos {s : State} (ha : Answering s .eos) : stageBeat s = .next (s.takeAnswer .eos) := by
  obtain ⟨onByte, hbeat, -⟩ := stageBeat_eq_beat ha.1
  exact hbeat.trans (beat_of_eos _ _ (fetchNext_of_eos ha.1 ha.2))

theorem stageBeat_of_unreadable {s : State} (ha : Answering s .unreadable) :
    stageBeat s = .next (s.takeAnswer .unreadable) := by
  obtain ⟨onByte, hbeat, -⟩ := stageBeat_eq_beat ha.1
  exact hbeat.trans (beat_of_unreadable _ _ (fetchNext_of_unreadable ha.1 ha.2))

theorem stageBeat_of_nothing {s : State} (h : s.srcReq = true) (hp : s.pins.presented = .nothing) :
    stageBeat s = .next s := by
  obtain ⟨onByte, hbeat, -⟩ := stageBeat_eq_beat h
  exact hbeat.trans (beat_of_noBeat _ _ (fetchNext_of_nothing hp))

theorem takeAnswer_withMoments (s : State) (a : Answer) (ps : List Pins) :
    (s.withMoments ps).takeAnswer a = (s.takeAnswer a).withMoments ps := by
  cases a with
  | byte b => exact takeByte_withMoments s b ps
  | eos => rfl
  | unreadable => rfl

/-- An answer leaves the moments ahead alone. -/
theorem takeAnswer_feed (s : State) (a : Answer) : (s.takeAnswer a).feed = s.feed := by
  have h := congrArg State.feed (takeAnswer_withMoments s a (s.pins :: s.feed))
  exact h

/-- A step moves the input ports on by one moment. -/
theorem step_feed {s t : State} (h : step s = .next t) : t.feed = s.feed.tail := by
  rcases step_cases h with ⟨-, rfl⟩ | ⟨-, u, hu, rfl⟩
  · rfl
  · rcases stageBeat_cases hu with ⟨a, -, rfl⟩ | ⟨-, rfl⟩
    · rw [State.tick_feed, takeAnswer_feed]
    · rfl

/-! ### The terminal stages -/

theorem beat_of_terminal {s : State} (h : s.stage.terminal = true) (short : ErrKind)
    (onByte : Byte → State → Result) : beat short onByte s = .next s :=
  beat_of_noBeat short onByte (fetchNext_of_not_srcReq (srcReq_of_terminal h))

/-! ### The stage that follows -/

theorem afterHeader_of_prg {p : BitVec 22} (h : 0 < p.toNat) (c : BitVec 8) : afterHeader p c = .prg :=
  if_pos ((prgPresent_iff p).2 h)

theorem afterHeader_of_no_prg {p : BitVec 22} (h : p.toNat = 0) (c : BitVec 8) : afterHeader p c = afterPrg c :=
  if_neg (by rw [prgPresent_iff]; omega)

theorem afterPrg_of_chr {c : BitVec 8} (h : 0 < c.toNat) : afterPrg c = .chr :=
  if_pos ((chrPresent_iff c).2 h)

theorem afterPrg_of_no_chr {c : BitVec 8} (h : c.toNat = 0) : afterPrg c = .done :=
  if_neg (by rw [chrPresent_iff]; omega)

/-- A header byte before the sixteenth keeps the stage (42_image_assembler.md R141). -/
theorem takeByte_stage_before_sixteenth {s : State} (hs : s.stage = .hdr) (hk : s.pc ≠ 15#23) (b : Byte) :
    (s.takeByte b).stage = .hdr := by
  rw [takeByte_of_hdr hs, acceptHeaderByte_eq_store hk]
  exact hs

/-- The sixteenth header byte goes where the sizes it writes say (R142). -/
theorem takeByte_stage_at_sixteenth {s : State} (hs : s.stage = .hdr) (hk : s.pc = 15#23) (b : Byte) :
    (s.takeByte b).stage = afterHeader (s.takeByte b).prgRomSize (s.takeByte b).chrRomSize := by
  rw [takeByte_of_hdr hs, hk, acceptHeaderByte_last]
  rfl

/-- Adding one to a length counter below a bound does not wrap. -/
theorem add_one_eq_iff_toNat {w : Nat} {a n : BitVec w} (h : a.toNat + 1 ≤ n.toNat) :
    a + 1#w = n ↔ a.toNat + 1 = n.toNat := by
  have hn := n.isLt
  rw [← BitVec.toNat_inj, BitVec.toNat_add, BitVec.toNat_ofNat, Nat.add_mod_mod, Nat.mod_eq_of_lt (by omega)]

/-- A program-code byte leaves the stage exactly at the last one (R143). -/
theorem takeByte_stage_of_prg {s : State} (hs : s.stage = .prg) (b : Byte)
    (h : s.prgLen.toNat + 1 ≤ s.prgRomSize.toNat) : (s.takeByte b).stage =
      if s.prgLen.toNat + 1 = s.prgRomSize.toNat then afterPrg s.chrRomSize else .prg := by
  rw [takeByte_of_prg hs, acceptPrgByte_eq_setStage, State.setStage_stage]
  simp only [← add_one_eq_iff_toNat h, ← hs]
  rfl

/-- A graphics byte leaves the stage exactly at the last one (R141). -/
theorem takeByte_stage_of_chr {s : State} (hs : s.stage = .chr) (b : Byte)
    (h : s.chrLen.toNat + 1 ≤ s.chrRomSize.toNat * 0x2000) : (s.takeByte b).stage =
      if s.chrLen.toNat + 1 = s.chrRomSize.toNat * 0x2000 then .done else .chr := by
  rw [← chrBytes_toNat] at h ⊢
  rw [takeByte_of_chr hs, acceptChrByte_eq_setStage, State.setStage_stage]
  simp only [← add_one_eq_iff_toNat h, ← hs]
  rfl

end Sys2Proof.Machine

namespace Sys2Proof.Safety

open Sys2Proof Sys2Proof.Machine

/-- Settles O14: each presence test is a comparison of a size with zero. -/
theorem nextStageFollowsTheSizes : Obligations.NextStageFollowsTheSizes :=
  ⟨fun _ c h => afterHeader_of_prg h c,
    fun c h => ⟨(afterHeader_of_no_prg rfl c).trans (afterPrg_of_chr h), afterPrg_of_chr h⟩, rfl, rfl⟩

/-- Settles O6: a terminal stage asks for nothing, so no beat is due and each operation is its waiting case. -/
theorem terminalStagesTakeNoStep : Obligations.TerminalStagesTakeNoStep := by
  unfold Obligations.TerminalStagesTakeNoStep
  intro s hs
  have ht := (terminal_iff_done_or_fail s.stage).2 hs
  exact ⟨srcReq_of_terminal ht, step_of_terminal ht, sameMachine_refl s, beat_of_terminal ht _ _,
    beat_of_terminal ht _ _, beat_of_terminal ht _ _, beat_of_terminal ht _ _⟩

/-! ### The stage table -/

/-- Settles O9: a step is a reset, a taken answer or a wait; for a byte the table's rows are the four lemmas about
the stage after `takeByte`. -/
theorem everyStageTransition : Obligations.EveryStageTransition := by
  unfold Obligations.EveryStageTransition
  intro s t ht
  rcases step_cases ht with ⟨hr, rfl⟩ | ⟨hr, u, hu, rfl⟩
  · exact ⟨fun _ => rfl, fun hr' => absurd hr (by simp [hr'])⟩
  refine ⟨fun hr' => absurd hr (by simp [hr']), fun _ => ⟨fun b ha => ?_, fun ha => ?_, fun ha => ?_, fun hno => ?_,
    fun hs => ?_⟩⟩
  · obtain rfl := eq_takeAnswer_of_stageBeat hu ha
    refine ⟨takeByte_err s b, fun hs hk => ?_, fun hs hk => ?_, fun hs hk => ?_, fun hs hk hc => ?_,
      fun hs hk hc => ?_, fun hs hk => ?_, fun hs hk => ?_⟩
    · exact takeByte_stage_before_sixteenth hs (fun h => absurd (h ▸ hk) (by decide)) b
    · have hstage := takeByte_stage_at_sixteenth hs (BitVec.eq_of_toNat_eq hk) b
      exact ⟨fun hp => hstage.trans (afterHeader_of_prg hp _),
        fun hp hc => hstage.trans ((afterHeader_of_no_prg hp _).trans (afterPrg_of_chr hc)),
        fun hp hc => hstage.trans ((afterHeader_of_no_prg hp _).trans (afterPrg_of_no_chr hc))⟩
    · exact (takeByte_stage_of_prg hs b hk.le).trans (if_neg hk.ne)
    · exact (takeByte_stage_of_prg hs b hk.le).trans ((if_pos hk).trans (afterPrg_of_chr hc))
    · exact (takeByte_stage_of_prg hs b hk.le).trans ((if_pos hk).trans (afterPrg_of_no_chr hc))
    · exact (takeByte_stage_of_chr hs b hk.le).trans (if_neg hk.ne)
    · exact (takeByte_stage_of_chr hs b hk.le).trans (if_pos hk)
  · obtain rfl := eq_takeAnswer_of_stageBeat hu ha
    exact ⟨rfl, fun hs => congrArg Stage.shortError hs, fun hs => congrArg Stage.shortError hs,
      fun hs => congrArg Stage.shortError hs⟩
  · obtain rfl := eq_takeAnswer_of_stageBeat hu ha
    exact ⟨rfl, rfl⟩
  · obtain rfl := eq_self_of_stageBeat hu hno
    exact ⟨rfl, rfl⟩
  · obtain rfl := eq_self_of_stageBeat hu (not_answering_of_terminal ((terminal_iff_done_or_fail s.stage).2 hs))
    rfl

/-! ### Every step keeps the invariants -/

theorem Inv.tick {bs : List Byte} {s : State} (h : Inv bs s) : Inv bs s.tick := { h with }

theorem inv_reset : Inv [] State.reset := { inv_restart State.reset with }

/-- While a byte is asked for, the last byte an image can need has not come (42_image_assembler.md R148). -/
theorem Inv.pc_lt_of_srcReq {bs : List Byte} {s : State} (h : Inv bs s) (hreq : s.srcReq = true) :
    s.pc.toNat < Config.pcMax := by
  have hmax : Config.pcMax = 16 + 0x3FC000 + 0x1FE000 := rfl
  rcases (State.srcReq_iff s).1 hreq with hs | hs | hs
  · obtain ⟨hle, -⟩ := h.hdr hs
    omega
  · have hph := h.pastHeader (.inl hs)
    obtain ⟨hlt, hc⟩ := h.prg hs _ hph.x_prgRomSize
    have hpc := hph.pc.trans hph.length
    have hp := (BitVec.lt_def.1 hlt).trans_le (prgRomSize_le _)
    rw [hc, BitVec.toNat_zero] at hpc
    omega
  · have hph := h.pastHeader (.inr (.inl hs))
    obtain ⟨-, hlt⟩ := h.chr hs _ _ hph.x_prgRomSize hph.x_chrRomSize
    have hpc := hph.pc.trans hph.length
    have hp := hph.progress.prgLen_le
    have hc := (BitVec.lt_def.1 hlt).trans_le (chrBytes_le _)
    omega

/-- Taking an error keeps the invariants, if a truncation error is the one of the stage (60_exceptions.md R161 to
R166). -/
theorem Inv.raise {bs : List Byte} {s : State} {e : ErrKind} (h : Inv bs s) (hreq : s.srcReq = true)
    (he : e ≠ .none) (hhdr : e = .truncatedHeader → s.stage = .hdr) (hprg : e = .truncatedRegionPrg → s.stage = .prg)
    (hchr : e = .truncatedRegionChr → s.stage = .chr) : Inv bs (s.raise e) where
  pc_eq := h.pc_eq
  pc_le := h.pc_le
  fail_iff := ⟨fun _ => he, fun _ => rfl⟩
  prg_written := h.prg_written
  chr_written := h.chr_written
  hdr := by simp
  past_header := by simp
  unwritten := h.unwritten
  written := h.written
  prg := by simp
  chr := by simp
  done := by simp
  fail_pc := fun _ => h.pc_lt_of_srcReq hreq
  short_header := fun hshort => by
    obtain ⟨hle, -, -, hx, -⟩ := h.hdr (hhdr hshort)
    exact ⟨hle, hx⟩
  short_prg := fun hshort => by
    have hs := hprg hshort
    have hph := h.pastHeader (.inl hs)
    obtain ⟨hlt, hc⟩ := h.prg hs _ hph.x_prgRomSize
    refine ⟨_, hph.x_prgRomSize, hlt, ?_⟩
    simpa [hc] using hph.pc.trans hph.length
  short_chr := fun hshort => by
    have hs := hchr hshort
    have hph := h.pastHeader (.inr (.inl hs))
    obtain ⟨hp, hlt⟩ := h.chr hs _ _ hph.x_prgRomSize hph.x_chrRomSize
    refine ⟨_, _, hph.x_prgRomSize, hph.x_chrRomSize, ?_, hp, hlt, hph.pc.trans hph.length⟩
    have hlt' := BitVec.lt_def.1 hlt
    rw [chrBytes_toNat] at hlt'
    rw [BitVec.lt_def, BitVec.toNat_zero]
    omega
  prg_bytes := h.prg_bytes
  chr_bytes := h.chr_bytes

/-- The step lemma of the invariants for any answer (42_image_assembler.md R149). -/
theorem Inv.takeAnswer {bs : List Byte} {s : State} (h : Inv bs s) (hreq : s.srcReq = true) (a : Answer) :
    Inv (bs ++ a.bytes) (s.takeAnswer a) := by
  cases a with
  | byte b => exact h.takeByte (by simpa [srcReq_eq_not_terminal] using hreq) b
  | eos =>
    rw [Answer.bytes, List.append_nil]
    exact h.raise hreq (shortError_ne_none hreq) s.stage.shortError_eq_truncatedHeader
      s.stage.shortError_eq_truncatedRegionPrg s.stage.shortError_eq_truncatedRegionChr
  | unreadable =>
    rw [Answer.bytes, List.append_nil]
    exact h.raise hreq (by decide) nofun nofun nofun

/-- An answer adds its bytes to those accepted. -/
theorem Inv.accepted_of_answering {bs : List Byte} {s : State} {a : Answer} (h : Inv bs s)
    (hr : s.pins.rst = false) (ha : Answering s a) : accepted bs s = bs ++ a.bytes := by
  cases a with
  | byte b => exact accepted_of_fetchNext_byte bs hr (h.fetchNext_of_answering_byte ha)
  | eos => simp [accepted, hr, fetchNext_of_eos ha.1 ha.2, Answer.bytes]
  | unreadable => simp [accepted, hr, fetchNext_of_unreadable ha.1 ha.2, Answer.bytes]

theorem accepted_of_not_answering {bs : List Byte} {s : State} (hr : s.pins.rst = false)
    (hno : ∀ a, ¬ Answering s a) : accepted bs s = bs := by
  rw [accepted, if_neg (by simp [hr])]
  split
  · next b t hf =>
    obtain ⟨hreq, hpres, -⟩ := fetchNext_eq_byte hf
    exact absurd ⟨hreq, hpres⟩ (hno (.byte b))
  · rfl

/-- Settles O39: a reset starts the invariants afresh, a taken answer keeps them (`Inv.takeAnswer`), a wait changes
nothing they speak of. -/
theorem everyStepKeepsTheInvariants : Obligations.EveryStepKeepsTheInvariants := by
  unfold Obligations.EveryStepKeepsTheInvariants
  refine ⟨inv_reset, fun bs s t h ht => ?_⟩
  rcases step_cases ht with ⟨hr, rfl⟩ | ⟨hr, u, hu, rfl⟩
  · rw [accepted, if_pos hr]
    exact (inv_restart s).tick
  · rcases stageBeat_cases hu with ⟨a, ha, rfl⟩ | ⟨hno, rfl⟩
    · rw [h.accepted_of_answering hr ha]
      exact (h.takeAnswer ha.1 a).tick
    · rw [accepted_of_not_answering hr hno]
      exact h.tick

/-! ### The end of a run -/

/-- Settles O41: at DONE the counters are the declared sizes and `pc` is their sum past the header; FAIL comes before
the last byte an image can need. -/
theorem consumptionIsExact : Obligations.ConsumptionIsExact := by
  unfold Obligations.ConsumptionIsExact
  refine fun bs s h => ⟨fun hs => ?_, fun hs => ⟨Nat.le_of_lt_succ (h.fail_pc hs), h.pc_eq.symm⟩⟩
  have hph := h.pastHeader (.inr (.inr hs))
  have hpc : s.pc.toNat = 16 + s.prgRomSize.toNat + s.chrRomSize.toNat * 0x2000 := by
    rw [hph.prgRomSize_eq, hph.chrRomSize_eq, ← chrBytes_toNat, hph.pc, hph.done_iff.1 hs]
  exact ⟨hpc, by omega, h.pc_le, h.pc_eq.symm⟩

/-- A block whose cells hold the stream from offset `o` on is that part of the stream (10_state.md R37). -/
theorem block_eq_take_drop {m : Memory} {bs : List Byte} {o : Nat} (n : Nat) (hlen : o + n ≤ bs.length)
    (h : ∀ i, i < n → m.read i = bs[o + i]?) : m.block n = some ((bs.drop o).take n) := by
  induction n with
  | zero => rfl
  | succ n ih =>
    have hn : m.read n = some bs[o + n] := (h n n.lt_succ_self).trans (List.getElem?_eq_getElem (by omega))
    rw [Memory.block, ih (by omega) fun i hi => h i (by omega), hn, List.take_succ_eq_append_getElem (by simp; omega),
      List.getElem_drop]

/-- The image that a whole stream declares (42_image_assembler.md R145, R147). -/
def declaredImage (bs : List Byte) : DecodedImage :=
  let r := decodeHeader (firstNine bs)
  { header := r
    prgRom := if 0 < r.prgRomSize.toNat then some ((bs.drop 16).take r.prgRomSize.toNat) else none
    chrRom := if 0 < r.chrRomSize.toNat * 0x2000 then
        some ((bs.drop (16 + r.prgRomSize.toNat)).take (r.chrRomSize.toNat * 0x2000)) else none }

theorem optionalBlock_eq_ite {present : Bool} {m : Memory} {n : Nat} {l : List Byte} (hp : present = true ↔ 0 < n)
    (hb : m.block n = some l) : optionalBlock present m n = some (if 0 < n then some l else none) := by
  cases present with
  | true => simp [optionalBlock, hb, ← hp]
  | false => simp [optionalBlock, ← hp]

/-- At DONE the host sees the image the accepted bytes declare (10_state.md R37, R38). -/
theorem PastHeader.obs_of_done {bs : List Byte} {s : State} (h : PastHeader bs s) (hs : s.stage = .done) :
    s.obs = some (.ok (declaredImage bs)) := by
  have hlen := h.done_iff.1 hs
  obtain ⟨hp, hc⟩ : s.prgLen = _ ∧ s.chrLen = _ := by simpa [RegionProgress, hs] using h.progress
  have hprg := block_eq_take_drop s.prgLen.toNat (by rw [hp]; omega) h.prg_bytes
  have hchr := block_eq_take_drop s.chrLen.toNat (by rw [hc]; omega) h.chr_bytes
  rw [hp] at hprg
  rw [hc, chrBytes_toNat] at hchr
  have himg : s.image = some (declaredImage bs) := by
    rw [State.image, h.x, HeaderRecord.regs_record]
    simp only [hp, hc, chrBytes_toNat]
    rw [optionalBlock_eq_ite (prgPresent_iff _) hprg, optionalBlock_eq_ite ((chrPresent_iff _).trans (by omega)) hchr]
    rfl
  rw [State.obs, hs]
  exact congrArg (Option.map Obs.ok) himg

theorem prgszValue_eq_zero_iff (u : Byte) : prgszValue u = 0#22 ↔ u = 0#8 := by
  rw [← BitVec.toNat_inj, ← BitVec.toNat_inj, prgszValue_toNat, BitVec.toNat_zero, BitVec.toNat_zero]
  omega

theorem getElem?_eq_some_iff_getD {bs : List Byte} {k : Nat} (hk : k < bs.length) (b : Byte) :
    bs[k]? = some b ↔ bs.getD k 0#8 = b := by
  rw [List.getD_eq_getElem?_getD, List.getElem?_eq_getElem hk, Option.some_inj, Option.getD_some]

/-- The program-code block is absent exactly when its size is zero (42_image_assembler.md R150). -/
theorem declaredImage_prgRom_eq_none_iff (bs : List Byte) :
    (declaredImage bs).prgRom = none ↔ (declaredImage bs).header.prgRomSize = 0#22 := by
  simp [declaredImage, ← BitVec.toNat_inj]

/-- The graphics block is absent exactly when its size is zero (R150). -/
theorem declaredImage_chrRom_eq_none_iff (bs : List Byte) :
    (declaredImage bs).chrRom = none ↔ (declaredImage bs).header.chrRomSize = 0#8 := by
  simp [declaredImage, ← BitVec.toNat_inj]

/-- Settles O42: the image at DONE is the declared one, its blocks are cut from a stream long enough for both sizes,
and each size is zero exactly when its header byte is. -/
theorem doneExposesAWellFormedImage : Obligations.DoneExposesAWellFormedImage := by
  unfold Obligations.DoneExposesAWellFormedImage
  intro bs s h hs
  have hph := h.pastHeader (.inr (.inr hs))
  have hlen := hph.done_iff.1 hs
  rw [chrBytes_toNat] at hlen
  have hprg := declaredImage_prgRom_eq_none_iff bs
  have hchr := declaredImage_chrRom_eq_none_iff bs
  refine ⟨declaredImage bs, hph.obs_of_done hs, hph.x, fun l hl => ?_, fun l hl => ?_, hprg, hchr, hprg.trans ?_,
    hchr.trans ?_⟩
  · obtain ⟨-, hl⟩ := Option.ite_none_right_eq_some.1 hl
    rw [← Option.some.inj hl, List.length_take, List.length_drop, Nat.min_eq_left (by omega)]
    rfl
  · obtain ⟨-, hl⟩ := Option.ite_none_right_eq_some.1 hl
    rw [← Option.some.inj hl, List.length_take, List.length_drop, Nat.min_eq_left (by omega)]
    rfl
  · rw [getElem?_eq_some_iff_getD (by omega), ← prgszValue_eq_zero_iff, ← decodeHeader_firstNine_prgRomSize]
    rfl
  · rw [getElem?_eq_some_iff_getD (by omega)]
    exact Eq.congr_left (decodeHeader_firstNine_chrRomSize bs)

/-! ### A run of answers -/

/-- Nothing is presented exactly while `src_ack` is low (30_encoding.md R90). -/
theorem presented_eq_nothing_iff (p : Pins) : p.presented = .nothing ↔ p.srcAck = false := by
  unfold Pins.presented
  split
  · next h => simp [h]
  · next h =>
    refine iff_of_false ?_ h
    split
    · simp
    · split
      · simp
      · split <;> simp

/-- A moment that counts as answered asks for no reset and gives one of the three answers. -/
theorem presented_of_answered {p : Pins} (h : answered p = true) : p.rst = false ∧ ∃ a, p.presented = .answer a := by
  simp only [answered, Bool.and_eq_true, Bool.not_eq_true', bne_iff_ne, ne_eq] at h
  obtain ⟨⟨hr, hack⟩, hkind⟩ := h
  refine ⟨hr, ?_⟩
  cases hp : p.presented with
  | nothing => simp [(presented_eq_nothing_iff p).1 hp] at hack
  | answer a => exact ⟨a, rfl⟩
  | notAnAnswer => exact absurd (presented_eq_notAnAnswer hp).2 hkind

/-- Under the invariants every answer is taken. -/
theorem Inv.step_of_answering {bs : List Byte} {s : State} {a : Answer} (h : Inv bs s) (hr : s.pins.rst = false)
    (ha : Answering s a) : step s = .next (s.takeAnswer a).tick := by
  refine step_of_stageBeat hr ?_
  cases a with
  | byte b => exact h.stageBeat_of_byte ha
  | eos => exact stageBeat_of_eos ha
  | unreadable => exact stageBeat_of_unreadable ha

theorem Inv.length_lt_of_not_terminal {bs : List Byte} {s : State} (h : Inv bs s) (hs : s.stage.terminal = false) :
    bs.length < Config.pcMax :=
  h.pc_eq ▸ h.pc_lt_of_srcReq (srcReq_of_not_terminal hs)

/-- An answered run ends within the beats that are left, by induction on the moments ahead: a byte leaves one less of
both, and an answer that is no byte ends the run (42_image_assembler.md R154). -/
theorem Inv.answered_run_ends {bs : List Byte} {s : State} (h : Inv bs s) (feed : List Pins) (hf : s.feed = feed)
    (hans : ∀ p ∈ s.pins :: feed, answered p = true) (hlen : Config.pcMax ≤ bs.length + feed.length) :
    ∃ n t, n + bs.length ≤ Config.pcMax + 1 ∧ runsTo n s t ∧ t.stage.terminal = true := by
  have hle : bs.length ≤ Config.pcMax := h.pc_eq ▸ h.pc_le
  induction feed generalizing bs s with
  | nil =>
    refine ⟨0, s, by omega, rfl, by_contra fun hs => ?_⟩
    exact absurd hlen (Nat.not_le.2 (h.length_lt_of_not_terminal (by simpa using hs)))
  | cons p ps ih =>
    cases hs : s.stage.terminal with
    | true => exact ⟨0, s, by omega, rfl, hs⟩
    | false =>
      have hlt := h.length_lt_of_not_terminal hs
      have hreq := srcReq_of_not_terminal hs
      obtain ⟨hnow, hahead⟩ := List.forall_mem_cons.1 hans
      obtain ⟨hr, a, ha⟩ := presented_of_answered hnow
      have hstep := h.step_of_answering hr ⟨hreq, ha⟩
      have hfeed := (takeAnswer_feed s a).trans hf
      cases a with
      | eos => exact ⟨1, _, by omega, run_succ_next hstep, rfl⟩
      | unreadable => exact ⟨1, _, by omega, run_succ_next hstep, rfl⟩
      | byte b =>
        have hlen' : (bs ++ [b]).length = bs.length + 1 := List.length_append
        obtain ⟨n, t, hn, hrun, ht⟩ := ih (s := (s.takeAnswer (.byte b)).tick) (h.takeAnswer hreq (.byte b)).tick
          (by rw [State.tick_feed, hfeed]; rfl) (by rw [State.tick_pins, hfeed]; exact hahead)
          (by rw [Answer.bytes, hlen']; simp at hlen; omega) (by rw [Answer.bytes, hlen']; omega)
        rw [Answer.bytes, hlen'] at hn
        exact ⟨n + 1, t, by omega, (run_succ_next hstep).trans hrun, ht⟩

/-- What holds of every moment ahead and of an idle one holds of every moment after a tick. -/
theorem forall_moments_tick {P : Pins → Prop} {s : State} (hidle : P Pins.idle) (h : ∀ p ∈ s.pins :: s.feed, P p) :
    ∀ p ∈ s.tick.pins :: s.tick.feed, P p := by
  rw [List.forall_mem_cons] at h ⊢
  rw [State.tick_pins, State.tick_feed]
  obtain ⟨-, hfeed⟩ := h
  cases hf : s.feed with
  | nil => exact ⟨hidle, by simp⟩
  | cons p ps => rwa [hf, List.forall_mem_cons] at hfeed

/-- While the source answers nothing the machine waits with its request outstanding (R154). -/
theorem runsTo_of_silence (n : Nat) {s : State} (hreq : s.srcReq = true)
    (h : ∀ p ∈ s.pins :: s.feed, p.rst = false ∧ p.srcAck = false) :
    ∃ t, runsTo n s t ∧ sameMachine s t ∧ t.srcReq = true := by
  induction n generalizing s with
  | zero => exact ⟨s, rfl, sameMachine_refl s, hreq⟩
  | succ n ih =>
    obtain ⟨hr, hack⟩ := h s.pins List.mem_cons_self
    have hstep := step_of_stageBeat hr (stageBeat_of_nothing hreq ((presented_eq_nothing_iff _).2 hack))
    obtain ⟨t, hrun, hsame, hreq'⟩ := ih (s := s.tick) hreq (forall_moments_tick ⟨rfl, rfl⟩ h)
    exact ⟨t, (run_succ_next hstep).trans hrun, sameMachine_of_tick hsame, hreq'⟩

/-- Settles O45: `Inv.answered_run_ends` from any state of a run and from a reset, and `runsTo_of_silence`. -/
theorem everyAnsweredRunEnds : Obligations.EveryAnsweredRunEnds :=
  ⟨fun _ s h hans hlen => h.answered_run_ends s.feed rfl hans hlen,
    fun s hans hlen => (inv_restart s).answered_run_ends s.feed rfl hans (by simpa using hlen),
    fun _ hreq h n => runsTo_of_silence n hreq h⟩

/-! ### The first terminal stage of a run -/

/-- `n` steps from `s` lead to `t`, and no stage before `t` is terminal while that of `t` is; `EndsAt.runsTo`,
`EndsAt.terminal` and `EndsAt.not_terminal_before` tie it to the run. -/
inductive EndsAt : Nat → State → State → Prop
  | stop {s : State} (hs : s.stage.terminal = true) : EndsAt 0 s s
  | next {n : Nat} {s u t : State} (hs : s.stage.terminal = false) (hstep : step s = .next u)
      (hend : EndsAt n u t) : EndsAt (n + 1) s t

theorem EndsAt.runsTo {n : Nat} {s t : State} (h : EndsAt n s t) : runsTo n s t := by
  induction h with
  | stop hs => exact run_zero _
  | next hs hstep hend ih => exact (run_succ_next hstep).trans ih

theorem EndsAt.terminal {n : Nat} {s t : State} (h : EndsAt n s t) : t.stage.terminal = true := by
  induction h with
  | stop hs => exact hs
  | next hs hstep hend ih => exact ih

theorem EndsAt.not_terminal_before {n : Nat} {s t : State} (h : EndsAt n s t) {m : Nat} (hm : m < n) :
    ∃ u, Safety.runsTo m s u ∧ u.stage.terminal = false := by
  induction h generalizing m with
  | stop hs => exact absurd hm m.not_lt_zero
  | @next n s u t hs hstep hend ih =>
    cases m with
    | zero => exact ⟨s, run_zero s, hs⟩
    | succ m =>
      obtain ⟨v, hrun, hv⟩ := ih (Nat.lt_of_succ_lt_succ hm)
      exact ⟨v, (run_succ_next hstep).trans hrun, hv⟩

/-- A run that ends while moments are known is the one `DECODE` takes from there (42_image_assembler.md R140). -/
theorem EndsAt.runFrom {n : Nat} {s t : State} (h : EndsAt n s t) (hn : n ≤ s.feed.length + 1) :
    runFrom s.feed s = .next t := by
  induction h with
  | stop hs => exact runFrom_of_terminal _ hs
  | @next n s u t hs hstep hend ih =>
    have hfeed := step_feed hstep
    rw [step_eq_moment] at hstep
    obtain ⟨v, hv, hvu⟩ := onNext_eq_next hstep
    cases hf : s.feed with
    | nil =>
      obtain rfl : n = 0 := by simpa [hf] using hn
      cases hend
      rw [Machine.runFrom, if_neg (by simp [hs]), hv]
      exact hvu
    | cons p ps =>
      rw [hf, List.tail_cons] at hfeed
      rw [runFrom_cons_of_moment p ps hs hv, Host.Outcome.next.inj hvu, ← hfeed]
      refine ih ?_
      rw [hf, List.length_cons] at hn
      rw [hfeed]
      omega

/-! ### The run over a canonical source -/

theorem presented_pins (a : Answer) : a.pins.presented = .answer a := by
  cases a <;> rfl

theorem pins_rst (a : Answer) : a.pins.rst = false := by
  cases a <;> rfl

/-- One step over a source that answers one request a moment. -/
theorem Inv.step_withMoments {bs : List Byte} {s : State} (h : Inv bs s) (hs : s.stage.terminal = false) (a : Answer)
    (ps : List Pins) : step (s.withMoments (a.pins :: ps)) = .next ((s.takeAnswer a).withMoments ps) := by
  have ha : Answering (s.withMoments (a.pins :: ps)) a :=
    ⟨srcReq_of_not_terminal (s := s.withMoments _) hs, presented_pins a⟩
  rw [(h.withMoments (a.pins :: ps)).step_of_answering (pins_rst a) ha, takeAnswer_withMoments, tick_withMoments_cons]

/-- A stream that ends while a byte is still asked for is short in the stage that asks (R145). -/
theorem Inv.decodeStream_of_asking {bs : List Byte} {s : State} (h : Inv bs s) (hreq : s.srcReq = true) :
    decodeStream true bs = ⟨.error s.stage.shortError, bs.length, bs.length + 1⟩ := by
  rcases (State.srcReq_iff s).1 hreq with hs | hs | hs
  · obtain ⟨hle, -⟩ := h.hdr hs
    rw [hs]
    exact decodeStream_shortHeader (by rw [← h.pc_eq]; omega)
  · have hph := h.pastHeader (.inl hs)
    obtain ⟨hlt, hc⟩ := h.prg hs _ hph.x_prgRomSize
    have hlt' := BitVec.lt_def.1 hlt
    have hlen := hph.length
    rw [hc, BitVec.toNat_zero] at hlen
    rw [hs]
    exact decodeStream_shortPrg (by omega) (by omega)
  · have hph := h.pastHeader (.inr (.inl hs))
    obtain ⟨hp, hlt⟩ := h.chr hs _ _ hph.x_prgRomSize hph.x_chrRomSize
    have hlt' := BitVec.lt_def.1 hlt
    have hlen := hph.length
    rw [chrBytes_toNat] at hlt'
    rw [hp] at hlen
    rw [hs]
    exact decodeStream_shortChr (by omega) (by omega)

/-- A stream that goes on past a complete image declares that image (R145, 20_memory.md R63). -/
theorem PastHeader.decodeStream_of_done {bs : List Byte} {s : State} (h : PastHeader bs s) (hs : s.stage = .done)
    (rest : List Byte) : decodeStream true (bs ++ rest) = ⟨.ok (declaredImage bs), bs.length, bs.length⟩ := by
  have hlen := h.done_iff.1 hs
  rw [chrBytes_toNat] at hlen
  have hfirst : firstNine (bs ++ rest) = firstNine bs := firstNine_append rest (by omega)
  have hwhole := decodeStream_whole (bytes := bs ++ rest) (by rw [hfirst, List.length_append]; omega)
  rw [hwhole, hfirst, ← hlen, List.drop_append_of_le_length (by omega), List.drop_append_of_le_length (by omega),
    List.take_append_of_le_length (by rw [List.length_drop]; omega),
    List.take_append_of_le_length (by rw [List.length_drop]; omega)]
  rfl

/-- A run that has ended without an error has the end of the whole-stream function, whatever the source still holds. -/
theorem Inv.decodeStream_of_terminal {bs : List Byte} {s : State} (h : Inv bs s) (herr : s.err = .none)
    (hs : s.stage.terminal = true) (rest : List Byte) : s.obs = some (decodeStream true (bs ++ rest)).obs ∧
      (decodeStream true (bs ++ rest)).pc = bs.length ∧ (decodeStream true (bs ++ rest)).beats = bs.length := by
  have hdone : s.stage = .done :=
    ((terminal_iff_done_or_fail _).1 hs).resolve_right fun hfail => h.fail_iff.1 hfail herr
  have hph := h.pastHeader (.inr (.inr hdone))
  rw [hph.decodeStream_of_done hdone]
  exact ⟨hph.obs_of_done hdone, rfl, rfl⟩

/-- From a state of a run that has accepted `bs`, a source that still holds `rest` ends the run as the whole-stream
function says of both together, by induction on `rest`. -/
theorem Inv.endsAt_decodeStream {bs : List Byte} {s : State} (h : Inv bs s) (herr : s.err = .none)
    (rest : List Byte) :
    ∃ n t, EndsAt n (s.withMoments (rest.map Pins.byte ++ [Answer.pins .eos])) t ∧ n ≤ rest.length + 1 ∧
      (decodeStream true (bs ++ rest)).beats = n + bs.length ∧ t.obs = some (decodeStream true (bs ++ rest)).obs ∧
      t.pc.toNat = (decodeStream true (bs ++ rest)).pc := by
  induction rest generalizing bs s with
  | nil =>
    cases hs : s.stage.terminal with
    | true =>
      obtain ⟨hobs, hpc, hbeats⟩ := h.decodeStream_of_terminal herr hs []
      exact ⟨0, _, .stop hs, by omega, by omega, hobs, h.pc_eq.trans hpc.symm⟩
    | false =>
      rw [List.append_nil, h.decodeStream_of_asking (srcReq_of_not_terminal hs)]
      exact ⟨1, _, .next hs (h.step_withMoments hs .eos []) (.stop rfl), by omega, Nat.add_comm .., rfl, h.pc_eq⟩
  | cons b rest ih =>
    cases hs : s.stage.terminal with
    | true =>
      obtain ⟨hobs, hpc, hbeats⟩ := h.decodeStream_of_terminal herr hs (b :: rest)
      exact ⟨0, _, .stop hs, by omega, by omega, hobs, h.pc_eq.trans hpc.symm⟩
    | false =>
      obtain ⟨n, t, hend, hn, hbeats, hobs, hpc⟩ := ih (h.takeByte hs b) ((takeByte_err s b).trans herr)
      rw [← List.append_cons] at hbeats hobs hpc
      rw [List.length_append, List.length_singleton] at hbeats
      have hstep := h.step_withMoments hs (.byte b) (rest.map Pins.byte ++ [Answer.pins .eos])
      exact ⟨n + 1, t, .next hs hstep hend, Nat.succ_le_succ hn, by omega, hobs, hpc⟩

/-- An unreadable source answers the first request, and no other, with `UNREADABLE` (20_memory.md R55). -/
theorem canonical_unreadable_moments (bytes : List Byte) :
    (Source.canonical false bytes).answers.map Answer.pins = [Answer.pins .unreadable] := by
  cases bytes <;> rfl

/-- The run from a reset over a canonical source (42_image_assembler.md R145). -/
theorem endsAt_canonical (readable : Bool) (bytes : List Byte) (s : State) :
    ∃ t, EndsAt (decodeStream readable bytes).beats (s.restart.connect (.canonical readable bytes)) t ∧
      (decodeStream readable bytes).beats ≤ (s.restart.connect (.canonical readable bytes)).feed.length + 1 ∧
      t.obs = some (decodeStream readable bytes).obs ∧ t.pc.toNat = (decodeStream readable bytes).pc := by
  cases readable with
  | false =>
    rw [decodeStream_unreadable, State.connect, canonical_unreadable_moments]
    exact ⟨_, .next rfl ((inv_restart s).step_withMoments rfl .unreadable []) (.stop rfl), Nat.le_refl 1, rfl, rfl⟩
  | true =>
    obtain ⟨n, t, hend, hn, hbeats, hobs, hpc⟩ := (inv_restart s).endsAt_decodeStream rfl bytes
    rw [List.nil_append] at hbeats hobs hpc
    rw [State.connect, canonical_moments, hbeats]
    exact ⟨t, hend, hn.trans (by simp [State.withMoments]), hobs, hpc⟩

/-- Settles O48: the run over the source ends as `endsAt_canonical` says, and `DECODE` is that run. -/
theorem wholeStreamFunction : Obligations.WholeStreamFunction := by
  unfold Obligations.WholeStreamFunction
  intro readable bytes s
  obtain ⟨t, hend, hfeed, hobs, hpc⟩ := endsAt_canonical readable bytes s
  exact ⟨t, hend.runsTo, hend.runFrom hfeed, hobs, hpc, hend.terminal, fun _ hm => hend.not_terminal_before hm⟩

end Sys2Proof.Safety
end

section
/-! Proofs of the error family (60_exceptions.md): what a failing answer does in each stage, how many bytes each
stage has accepted, and that only a reset leaves a terminal stage. -/

namespace Sys2Proof.Machine

open Sys2Proof.Safety

/-- `EOS` in stage `g` raises the error of `g` (R161 to R163, R166). -/
theorem stageBeat_of_eos_at {s : State} {g : Stage} (hs : s.stage = g) (ha : Answering s .eos) :
    stageBeat s = .next (s.raise g.shortError) := by
  rw [← hs]
  exact stageBeat_of_eos ha

/-- Reset wins over whatever else the moment brings (70_reset_and_hazards.md R190). -/
theorem step_of_rst {s : State} (h : s.pins.rst = true) : step s = .next s.restart.tick := by
  rw [step_eq_moment, moment, if_pos h]
  rfl

end Sys2Proof.Machine

namespace Sys2Proof.Safety

open Sys2Proof Sys2Proof.Machine

/-- Settles O35: the operation of each stage is its stage beat, and a failing answer there is `State.raise`. -/
theorem raiseWritesErrAndStageOnly : Obligations.RaiseWritesErrAndStageOnly := by
  unfold Obligations.RaiseWritesErrAndStageOnly
  refine fun s => ⟨fun ha => ⟨fun hs => ?_, fun hs => ?_, fun hs => ?_⟩,
    fun ha => ⟨fun hs => ?_, fun hs => ?_, fun hs => ?_⟩⟩
  · exact (stageBeat_hdr hs).symm.trans (stageBeat_of_eos_at hs ha)
  · exact (stageBeat_prg hs).symm.trans (stageBeat_of_eos_at hs ha)
  · exact (stageBeat_chr hs).symm.trans (stageBeat_of_eos_at hs ha)
  · exact (stageBeat_hdr hs).symm.trans (stageBeat_of_unreadable ha)
  · exact (stageBeat_prg hs).symm.trans (stageBeat_of_unreadable ha)
  · exact (stageBeat_chr hs).symm.trans (stageBeat_of_unreadable ha)

/-- The state a reset step leads to holds the reset table (10_state.md R36). -/
theorem atReset_restart_tick (s : State) : AtReset s.restart.tick := atReset_reset

/-- Settles O7: the run without reset is `runsTo_of_terminal`, by induction on the number of steps; a reset restarts
the machine from any stage. -/
theorem onlyResetLeavesATerminalStage : Obligations.OnlyResetLeavesATerminalStage :=
  fun s hs => ⟨fun hn n => runsTo_of_terminal n ((terminal_iff_done_or_fail s.stage).2 hs) hn,
    fun hr => ⟨_, step_of_rst hr, atReset_restart_tick s⟩⟩

/-! ### How many bytes each stage has accepted -/

/-- In stage PRG the header and less than the whole program-code region have come (R162). -/
theorem Inv.length_of_prg {bs : List Byte} {s : State} (h : Inv bs s) (hs : s.stage = .prg) :
    16 ≤ bs.length ∧ bs.length < 16 + s.prgRomSize.toNat := by
  have hph := h.pastHeader (.inl hs)
  obtain ⟨hlt, hc⟩ := h.prg hs _ hph.x_prgRomSize
  have hp := BitVec.lt_def.1 hlt
  rw [hph.length, hph.prgRomSize_eq, hc, BitVec.toNat_zero]
  omega

/-- In stage CHR all of the program-code region and less than the whole graphics region have come (R163). -/
theorem Inv.length_of_chr {bs : List Byte} {s : State} (h : Inv bs s) (hs : s.stage = .chr) :
    16 + s.prgRomSize.toNat ≤ bs.length ∧
      bs.length < 16 + s.prgRomSize.toNat + s.chrRomSize.toNat * 0x2000 := by
  have hph := h.pastHeader (.inr (.inl hs))
  obtain ⟨hp, hlt⟩ := h.chr hs _ _ hph.x_prgRomSize hph.x_chrRomSize
  have hc := BitVec.lt_def.1 hlt
  rw [chrBytes_toNat] at hc
  rw [hph.length, hph.prgRomSize_eq, hph.chrRomSize_eq, hp]
  omega

/-- Settles O36: a failing answer raises the error of the stage (`State.takeAnswer`) and leaves `pc` and `x`, and the
invariants of the stage bound the number of bytes accepted. -/
theorem failingAnswersRaiseTheStagesError : Obligations.FailingAnswersRaiseTheStagesError := by
  unfold Obligations.FailingAnswersRaiseTheStagesError
  refine fun bs s h hr => ⟨fun ha => ⟨_, h.step_of_answering hr ha, rfl, rfl, h.pc_eq, fun hs => ?_, fun hs => ?_,
    fun hs => ?_⟩, fun ha => ⟨_, h.step_of_answering hr ha, rfl, h.pc_eq⟩⟩
  · obtain ⟨hle, -, -, hx, -⟩ := h.hdr hs
    exact ⟨congrArg Stage.shortError hs, h.pc_eq ▸ hle, hx⟩
  · obtain ⟨hge, hlt⟩ := h.length_of_prg hs
    exact ⟨congrArg Stage.shortError hs, hge, by omega, hlt⟩
  · obtain ⟨hge, hlt⟩ := h.length_of_chr hs
    exact ⟨congrArg Stage.shortError hs, by omega, hge, hlt⟩

end Sys2Proof.Safety
end

section
/-! Proof of the reset family (70_reset_and_hazards.md R192). After a reset two machines on the same inputs differ in
`epoch` alone, the index of the free values. Under the invariants a step reads no unwritten cell, so no step lets that
difference reach the machine (`Inv.step_withEpoch`), and no run does (`Inv.runsTo_withEpoch`). -/

namespace Sys2Proof.Machine

open Sys2Proof.Safety

/-- `s` with the free values of epoch `e` (log 4). -/
def State.withEpoch (s : State) (e : Nat) : State := { s with epoch := e }

@[simp] theorem State.withEpoch_pc (s : State) (e : Nat) : (s.withEpoch e).pc = s.pc := rfl

/-- A source that presents no answer code is refused (30_encoding.md R90, log 7). -/
theorem stageBeat_of_notAnAnswer {s : State} (h : s.srcReq = true) (hp : s.pins.presented = .notAnAnswer) :
    stageBeat s = .refused .notAnAnswer := by
  obtain ⟨onByte, hbeat, -⟩ := stageBeat_eq_beat h
  have hf : s.fetchNext = .notAnAnswer := by simp [State.fetchNext, h, hp]
  rw [hbeat, beat, hf]

/-- A stage beat that gives a next state without an answer taken waits: nothing is asked for or nothing is presented. -/
theorem stageBeat_wait_cases {s u : State} (h : stageBeat s = .next u) (hno : ∀ a, ¬ Answering s a) :
    s.stage.terminal = true ∨ (s.srcReq = true ∧ s.pins.presented = .nothing) := by
  cases hs : s.stage.terminal with
  | true => exact .inl rfl
  | false =>
    have hreq := srcReq_of_not_terminal hs
    refine .inr ⟨hreq, ?_⟩
    cases hp : s.pins.presented with
    | nothing => rfl
    | answer a => exact absurd ⟨hreq, hp⟩ (hno a)
    | notAnAnswer =>
      rw [stageBeat_of_notAnAnswer hreq hp] at h
      cases h

/-- A wait is a wait whatever the free values are. -/
theorem stageBeat_withEpoch_of_wait {s u : State} (e : Nat) (h : stageBeat s = .next u)
    (hno : ∀ a, ¬ Answering s a) : stageBeat (s.withEpoch e) = .next (s.withEpoch e) := by
  rcases stageBeat_wait_cases h hno with hs | ⟨hreq, hp⟩
  · exact stageBeat_terminal (s := s.withEpoch e) hs
  · exact stageBeat_of_nothing (s := s.withEpoch e) hreq hp

/-- Two resets on the same inputs give states that differ in `epoch` alone (R190). -/
theorem restart_eq_withEpoch {s₁ s₂ : State} (hp : s₂.pins = s₁.pins) (hf : s₂.feed = s₁.feed) :
    s₂.restart = s₁.restart.withEpoch (s₂.epoch + 1) := by
  rw [State.restart, hp, hf]
  rfl

end Sys2Proof.Machine

namespace Sys2Proof.Safety

open Sys2Proof Sys2Proof.Machine

theorem Inv.withEpoch {bs : List Byte} {s : State} (h : Inv bs s) (e : Nat) : Inv bs (s.withEpoch e) := { h with }

/-! ### What a beat reads is written -/

theorem PastHeader.prgRomSize_withEpoch {bs : List Byte} {s : State} (h : PastHeader bs s) (e : Nat) :
    (s.withEpoch e).prgRomSize = s.prgRomSize := by
  simp [State.prgRomSize, State.withEpoch, h.x_prgRomSize]

theorem PastHeader.chrRomSize_withEpoch {bs : List Byte} {s : State} (h : PastHeader bs s) (e : Nat) :
    (s.withEpoch e).chrRomSize = s.chrRomSize := by
  simp [State.chrRomSize, State.withEpoch, h.x_chrRomSize]

/-- At the sixteenth header byte every kept byte is written, so the record is the same for all free values (R111). -/
theorem Inv.finishHeader_withEpoch {bs : List Byte} {s : State} (h : Inv bs s) (hs : s.stage = .hdr)
    (hk : s.pc = 15#23) (e : Nat) :
    (s.withEpoch e).advancePc.finishHeader = s.advancePc.finishHeader.withEpoch e := by
  have hlen : bs.length = 15 := by rw [← h.pc_eq, hk]; rfl
  have hbytes : s.advancePc.headerBytes = firstNine bs := h.headerBytes_eq hs (by omega)
  have hbytes' : (s.withEpoch e).advancePc.headerBytes = firstNine bs :=
    (h.withEpoch e).headerBytes_eq hs (by omega)
  rw [State.finishHeader, State.finishHeader, hbytes, hbytes']
  generalize decodeHeader (firstNine bs) = r
  generalize afterHeader r.prgRomSize r.chrRomSize = g
  rfl

/-- An accepted byte does the same for all free values, stage by stage. -/
theorem Inv.takeByte_withEpoch {bs : List Byte} {s : State} (h : Inv bs s) (b : Byte) (e : Nat) :
    (s.withEpoch e).takeByte b = (s.takeByte b).withEpoch e := by
  cases hs : s.stage with
  | hdr =>
    rw [takeByte_of_hdr hs, takeByte_of_hdr (s := s.withEpoch e) hs, State.withEpoch_pc]
    by_cases hk : s.pc = 15#23
    · rw [hk, acceptHeaderByte_last, acceptHeaderByte_last, h.finishHeader_withEpoch hs hk]
    · rw [acceptHeaderByte_eq_store hk, acceptHeaderByte_eq_store hk]
      rfl
  | prg =>
    have hph := h.pastHeader (.inl hs)
    have hp : (s.withEpoch e).advancePc.prgRomSize = s.advancePc.prgRomSize := hph.prgRomSize_withEpoch e
    have hc : (s.withEpoch e).advancePc.chrRomSize = s.advancePc.chrRomSize := hph.chrRomSize_withEpoch e
    rw [takeByte_of_prg hs, takeByte_of_prg (s := s.withEpoch e) hs, acceptPrgByte_eq_setStage,
      acceptPrgByte_eq_setStage, hp, hc]
    rfl
  | chr =>
    have hph := h.pastHeader (.inr (.inl hs))
    have hc : (s.withEpoch e).advancePc.chrRomSize = s.advancePc.chrRomSize := hph.chrRomSize_withEpoch e
    rw [takeByte_of_chr hs, takeByte_of_chr (s := s.withEpoch e) hs, acceptChrByte_eq_setStage,
      acceptChrByte_eq_setStage, hc]
    rfl
  | done => simp [State.takeByte, hs, State.withEpoch]
  | fail => simp [State.takeByte, hs, State.withEpoch]

theorem Inv.takeAnswer_withEpoch {bs : List Byte} {s : State} (h : Inv bs s) (a : Answer) (e : Nat) :
    (s.withEpoch e).takeAnswer a = (s.takeAnswer a).withEpoch e := by
  cases a with
  | byte b => exact h.takeByte_withEpoch b e
  | eos => rfl
  | unreadable => rfl

/-! ### Runs that differ in the free values -/

/-- Under the invariants a step of one machine is a step of the other, again up to `epoch`: both are reset, both take
the answer or both wait. -/
theorem Inv.step_withEpoch {bs : List Byte} {s t : State} (h : Inv bs s) (ht : step s = .next t) (e : Nat) :
    ∃ e', step (s.withEpoch e) = .next (t.withEpoch e') := by
  rcases step_cases ht with ⟨hr, rfl⟩ | ⟨hr, u, hu, rfl⟩
  · exact ⟨e + 1, step_of_rst (s := s.withEpoch e) hr⟩
  · refine ⟨e, ?_⟩
    rcases stageBeat_cases hu with ⟨a, ha, rfl⟩ | ⟨hno, rfl⟩
    · rw [(h.withEpoch e).step_of_answering hr (a := a) ha, h.takeAnswer_withEpoch a e]
      rfl
    · exact step_of_stageBeat (s := u.withEpoch e) hr (stageBeat_withEpoch_of_wait e hu hno)

/-- The same of any number of steps, by induction on it, the invariants holding all along (O39). -/
theorem Inv.runsTo_withEpoch (n : Nat) {bs : List Byte} {s t : State} (h : Inv bs s) (hrun : runsTo n s t)
    (e : Nat) : ∃ e', runsTo n (s.withEpoch e) (t.withEpoch e') := by
  induction n generalizing bs s e with
  | zero =>
    obtain rfl := Host.Outcome.next.inj hrun
    exact ⟨e, rfl⟩
  | succ n ih =>
    obtain ⟨u, hstep, hrest⟩ := run_succ_eq_next hrun
    obtain ⟨_, hkeeps⟩ := everyStepKeepsTheInvariants
    obtain ⟨e₁, hstep'⟩ := h.step_withEpoch hstep e
    obtain ⟨e₂, hrest'⟩ := ih (hkeeps bs s u h hstep) hrest e₁
    exact ⟨e₂, (run_succ_next hstep').trans hrest'⟩

/-- Settles O3: the reset leaves the two machines apart in `epoch` alone, and the run from it never lets `epoch` reach
the machine (`Inv.runsTo_withEpoch`). -/
theorem nothingSurvivesReset : Obligations.NothingSurvivesReset := by
  unfold Obligations.NothingSurvivesReset
  intro s₁ s₂ hr hp hf n t₁ hrun
  obtain ⟨u, hstep, hrest⟩ := run_succ_eq_next hrun
  obtain rfl := Host.Outcome.next.inj ((step_of_rst hr).symm.trans hstep)
  obtain ⟨e, hrest'⟩ := (inv_restart s₁).tick.runsTo_withEpoch n hrest (s₂.epoch + 1)
  have hstep₂ : step s₂ = .next (s₁.restart.tick.withEpoch (s₂.epoch + 1)) := by
    rw [step_of_rst (hp ▸ hr), restart_eq_withEpoch hp hf]
    rfl
  exact ⟨t₁.withEpoch e, (run_succ_next hstep₂).trans hrest', sameMachine_refl t₁⟩

end Sys2Proof.Safety
end

section
/-! Proofs about the codes (30_encoding.md R81, R82, R87, R98): the decoder gives every well-formed operation back
from its code, and a few codes written out from the spec. -/

namespace Sys2Proof

theorem mem_rows (r : Row) : r ∈ rows := by cases r <;> decide

/-- Whatever a row gives for a code is among the operations the code stands for (30_encoding.md R98). -/
theorem mem_decodeAll_of_decodeRow {r : Row} {c : Code} {i : Instr} (h : decodeRow r c = .ok i) :
    i ∈ decodeAll c :=
  List.mem_filterMap.2 ⟨r, mem_rows r, by rw [h]; rfl⟩

/-- A masked operand that holds no bit outside its mask is read back whole (R82). -/
theorem headerByte_placeByte_and {k : Nat} (hk : k < 16) {mask b : Byte} (h : onlyBits mask b = true) :
    headerByte (placeByte k b) k &&& mask = b := by
  rw [headerByte_placeByte_same hk, (onlyBits_iff mask b).1 h]

/-- The four bytes of a tag stand where HDR.TAG reads them: each byte of the header is the one placed there, the
others add only zeros (R81). -/
theorem decodeTag_encode (t0 t1 t2 t3 : Byte) :
    decodeTag (placeByte 0 t0 ||| placeByte 1 t1 ||| placeByte 2 t2 ||| placeByte 3 t3) = .hdrTag t0 t1 t2 t3 := by
  simp [decodeTag, headerByte_placeByte_same, headerByte_placeByte_other]

/-- The two flag bytes stand where HDR.MAPPER reads them, and it drops no bit of a well-formed operand (R82). -/
theorem decodeMapper_encode {a b : Byte} (ha : onlyBits nibbleMask a = true) (hb : onlyBits nibbleMask b = true) :
    decodeMapper (placeByte 6 a ||| placeByte 7 b) = .hdrMapper a b := by
  rw [onlyBits_iff] at ha hb
  simp [decodeMapper, headerByte_placeByte_same, headerByte_placeByte_other, ha, hb]

/-- Each row reads back the operands its encoding places: a whole byte as it is, a masked byte because a well-formed
operand holds no bit outside the mask. -/
theorem decodeRow_encode {i : Instr} (h : i.wellFormed = true) : decodeRow i.row (encode i) = .ok i := by
  cases i with
  | hdec => rfl
  | hdrTag t0 t1 t2 t3 => exact congrArg Except.ok (decodeTag_encode t0 t1 t2 t3)
  | hdrPrgsz b => exact congrArg (fun b => Except.ok (Instr.hdrPrgsz b)) (headerByte_placeByte_same (by decide) b)
  | hdrChrsz b => exact congrArg (fun b => Except.ok (Instr.hdrChrsz b)) (headerByte_placeByte_same (by decide) b)
  | hdrMirr a => exact congrArg (fun b => Except.ok (Instr.hdrMirr b)) (headerByte_placeByte_and (by decide) h)
  | hdrPers a => exact congrArg (fun b => Except.ok (Instr.hdrPers b)) (headerByte_placeByte_and (by decide) h)
  | hdrTrnr a => exact congrArg (fun b => Except.ok (Instr.hdrTrnr b)) (headerByte_placeByte_and (by decide) h)
  | hdrMapper a b =>
    obtain ⟨ha, hb⟩ := Bool.and_eq_true_iff.1 h
    exact congrArg Except.ok (decodeMapper_encode ha hb)
  | hdrPrgram b => exact congrArg (fun b => Except.ok (Instr.hdrPrgram b)) (headerByte_placeByte_same (by decide) b)
  | hdrPad => rfl
  | rdprg => rfl
  | rdchr => rfl
  | decode => rfl
  | reset => rfl

/-- Settles O53: the row of an operation reads its own encoding back (`decodeRow_encode`), and every row counts for
`decodeAll`. -/
theorem decodeOfEncodeIsTheOperation : Obligations.DecodeOfEncodeIsTheOperation :=
  fun _ h => ⟨decodeRow_encode h, mem_decodeAll_of_decodeRow (decodeRow_encode h)⟩

/-- Settles O54: the table words read by the decoder, and the operands of two field decoders of the header of P2. -/
theorem writtenOutCodesDecode : Obligations.WrittenOutCodesDecode :=
  ⟨rfl, rfl, rfl, rfl, rfl, rfl, rfl, rfl, by decide, by decide, by decide⟩

end Sys2Proof
end

section
/-! Proofs about the step and about what the host sees (10_state.md R22, R24, R25, R33 to R38): a reset, a moment
without an answer, the order of the stages, what moves the cursor, what writes the registers, and the ports. -/

namespace Sys2Proof

/-! ### The selected operation -/

/-- What the decoder reads is well-formed: a control operation has no operand, and a tag has whole bytes. -/
theorem wellFormed_of_decode {c : Code} {i : Instr} (h : decode c = .ok i) : i.wellFormed = true := by
  cases c with
  | stage3 g =>
    simp only [decode, decodeStage] at h
    split_ifs at h <;> cases h <;> rfl
  | hdr16 w => cases h; rfl
  | run => cases h; rfl
  | signal b =>
    simp only [decode] at h
    split at h <;> cases h
    rfl

end Sys2Proof

namespace Sys2Proof.Machine

open Sys2Proof.Safety

theorem step_of_decode {s : State} {i : Instr} (h : decode s.fetchCode = .ok i) :
    step s = onNext (exec i s) fun t => .next t.tick := by
  rw [step, h]

/-- Without a reset a step is a stage beat, then the next levels of the ports. -/
theorem stageBeat_of_step {s t : State} (hr : s.pins.rst = false) (h : step s = .next t) :
    ∃ u, stageBeat s = .next u ∧ t = u.tick := by
  rcases step_cases h with ⟨hr', -⟩ | ⟨-, hbeat⟩
  · rw [hr] at hr'
    cases hr'
  · exact hbeat

/-- A moment without an answer and without a reset moves on the input ports only (00_scope.md R10). -/
theorem step_of_no_answer {s : State} (hr : s.pins.rst = false) (hack : s.pins.srcAck = false) :
    step s = .next s.tick := by
  cases hs : s.stage.terminal with
  | true => exact step_of_terminal hs hr
  | false =>
    exact step_of_stageBeat hr
      (stageBeat_of_nothing (srcReq_of_not_terminal hs) ((presented_eq_nothing_iff s.pins).2 hack))

/-! ### The order of the stages -/

theorem rank_afterPrg (c : BitVec 8) : rank .prg < rank (afterPrg c) := by
  unfold afterPrg
  split <;> decide

theorem rank_afterHeader (p : BitVec 22) (c : BitVec 8) : rank .hdr < rank (afterHeader p c) := by
  unfold afterHeader
  split
  · decide
  · split <;> decide

theorem rank_lt_fail {s : State} (h : s.srcReq = true) : rank s.stage < rank .fail := by
  rcases (State.srcReq_iff s).1 h with hs | hs | hs <;> rw [hs] <;> decide

/-- An accepted byte keeps the stage or moves it on (10_state.md R25). -/
theorem takeByte_stage_eq_or_rank_lt (s : State) (b : Byte) :
    (s.takeByte b).stage = s.stage ∨ rank s.stage < rank (s.takeByte b).stage := by
  cases hs : s.stage with
  | hdr =>
    by_cases hk : s.pc = 15#23
    · rw [takeByte_stage_at_sixteenth hs hk]
      exact .inr (rank_afterHeader _ _)
    · exact .inl (takeByte_stage_before_sixteenth hs hk b)
  | prg =>
    rw [takeByte_of_prg hs, acceptPrgByte_eq_setStage, State.setStage_stage]
    split
    · exact .inr (rank_afterPrg _)
    · exact .inl hs
  | chr =>
    rw [takeByte_of_chr hs, acceptChrByte_eq_setStage, State.setStage_stage]
    split
    · exact .inr (by decide)
    · exact .inl hs
  | done => simp [State.takeByte, hs]
  | fail => simp [State.takeByte, hs]

/-- An answer keeps the stage or moves it on. -/
theorem takeAnswer_stage_eq_or_rank_lt {s : State} (h : s.srcReq = true) (a : Answer) :
    (s.takeAnswer a).stage = s.stage ∨ rank s.stage < rank (s.takeAnswer a).stage := by
  cases a with
  | byte b => exact takeByte_stage_eq_or_rank_lt s b
  | eos => exact .inr (rank_lt_fail h)
  | unreadable => exact .inr (rank_lt_fail h)

/-! ### The cursor -/

/-- In every stage that asks for one, an accepted byte is counted by the cursor (20_memory.md R56). -/
theorem takeByte_pc {s : State} (h : s.srcReq = true) (b : Byte) : (s.takeByte b).pc = s.advancePc.pc := by
  rcases (State.srcReq_iff s).1 h with hs | hs | hs
  · rw [takeByte_of_hdr hs]
    by_cases hk : s.pc = 15#23
    · rw [hk, acceptHeaderByte_last]; rfl
    · rw [acceptHeaderByte_eq_store hk]; rfl
  · rw [takeByte_of_prg hs, acceptPrgByte_eq_setStage]; rfl
  · rw [takeByte_of_chr hs, acceptChrByte_eq_setStage]; rfl

/-- A beat that accepts a byte did not meet a full cursor (log 5). -/
theorem pc_ne_allOnes_of_stageBeat {s u : State} {b : Byte} (h : stageBeat s = .next u)
    (ha : Answering s (.byte b)) : s.pc ≠ BitVec.allOnes 23 := by
  obtain ⟨onByte, hbeat, -⟩ := stageBeat_eq_beat ha.1
  rcases beat_answer_cases (hbeat.symm.trans h) with ⟨_, -, hp, -⟩ | ⟨ha', -⟩ | ⟨ha', -⟩ | ⟨hno, -⟩
  · exact hp
  · cases answering_inj ha ha'
  · cases answering_inj ha ha'
  · exact absurd ha (hno _)

/-! ### The result registers -/

/-- Only the sixteenth header byte writes the registers, all from the kept bytes (10_state.md R22). -/
theorem takeByte_x_of_ne {s : State} {b : Byte} (h : (s.takeByte b).x ≠ s.x) :
    s.stage = .hdr ∧ s.pc = 15#23 ∧ (s.takeByte b).x = (decodeHeader s.headerBytes).regs := by
  cases hs : s.stage with
  | hdr =>
    by_cases hk : s.pc = 15#23
    · refine ⟨rfl, hk, ?_⟩
      rw [takeByte_of_hdr hs, hk, acceptHeaderByte_last]
      rfl
    · refine absurd ?_ h
      rw [takeByte_of_hdr hs, acceptHeaderByte_eq_store hk]
      rfl
  | prg =>
    obtain ⟨-, -, -, hx, -⟩ := acceptPrgByte_frame b s.advancePc
    exact absurd (by rw [takeByte_of_prg hs, hx]; rfl) h
  | chr =>
    obtain ⟨-, -, -, hx, -⟩ := acceptChrByte_frame b s.advancePc
    exact absurd (by rw [takeByte_of_chr hs, hx]; rfl) h
  | done => exact absurd (by simp [State.takeByte, hs]) h
  | fail => exact absurd (by simp [State.takeByte, hs]) h

/-! ### The ports -/

theorem portPrgData_of_not_done {s : State} (h : s.stage ≠ .done) (a : BitVec 22) :
    s.portPrgData a = .error .hostReadUnspecified := by
  unfold State.portPrgData
  split
  · exact State.atDone_of_not_done h _
  · rfl

theorem portChrData_of_not_done {s : State} (h : s.stage ≠ .done) (a : BitVec 21) :
    s.portChrData a = .error .hostReadUnspecified := by
  unfold State.portChrData
  split
  · exact State.atDone_of_not_done h _
  · rfl

/-- The status ports tell exactly `stage` and `pc` (10_state.md R33, R34): the stage codes differ, and the derived
signals are functions of the stage. -/
theorem statusPorts_eq_iff (s t : State) : s.statusPorts = t.statusPorts ↔ s.stage = t.stage ∧ s.pc = t.pc := by
  constructor
  · intro h
    exact ⟨Stage.code_inj.1 (congrArg StatusPorts.stage h), congrArg StatusPorts.pc h⟩
  · rintro ⟨hstage, hpc⟩
    simp [State.statusPorts, State.srcReq, State.done, State.failed, hstage, hpc]

end Sys2Proof.Machine

namespace Sys2Proof.Safety

open Sys2Proof Sys2Proof.Machine

/-- Where the invariants hold the `err` port never gives the code of NONE: it answers at FAIL only, where an error is
recorded (42_image_assembler.md R149). -/
theorem Inv.portErr_ne_none_code {bs : List Byte} {s : State} (h : Inv bs s) : s.portErr ≠ .ok 0#3 := by
  intro hport
  by_cases hs : s.stage = .fail
  · rw [State.portErr_of_fail hs] at hport
    exact h.fail_iff.1 hs (ErrKind.code_inj.1 (Except.ok.inj hport))
  · rw [State.portErr_of_not_fail hs] at hport
    cases hport

/-! ### The obligations -/

/-- Settles O2: RESET gives `State.restart` from any state, by `exec` and by a step with `rst` high. -/
theorem resetRestoresTheResetState : Obligations.ResetRestoresTheResetState :=
  fun s => ⟨⟨s.restart, rfl, atReset_reset, rfl, rfl, rfl, rfl⟩,
    fun hr => ⟨s.restart.tick, step_of_rst hr, atReset_restart_tick s, rfl, rfl, rfl, rfl⟩⟩

/-- Settles O4: the step runs what the code decodes to, which is well-formed whatever the code. -/
theorem stepRunsTheDecodedOperation : Obligations.StepRunsTheDecodedOperation :=
  fun _ _ h => ⟨wellFormed_of_decode h, step_of_decode h⟩

/-- Settles O8: a terminal stage takes no step, and any other waits; the next levels are no part of the machine. -/
theorem noAnswerHoldsTheState : Obligations.NoAnswerHoldsTheState :=
  fun s hr hack => ⟨step_of_no_answer hr hack, sameMachine_refl s⟩

/-- Settles O10: a step without reset takes an answer, which keeps the stage or raises its rank, or waits. -/
theorem stagesAreMetInOrder : Obligations.StagesAreMetInOrder := by
  unfold Obligations.StagesAreMetInOrder
  intro s t hr ht
  obtain ⟨u, hu, rfl⟩ := stageBeat_of_step hr ht
  rw [State.tick_stage]
  rcases stageBeat_cases hu with ⟨a, ha, rfl⟩ | ⟨-, rfl⟩
  · rcases takeAnswer_stage_eq_or_rank_lt ha.1 a with hstage | hlt
    · rw [hstage]
      exact ⟨le_rfl, fun _ => rfl⟩
    · exact ⟨hlt.le, fun heq => absurd heq hlt.ne⟩
  · exact ⟨le_rfl, fun _ => rfl⟩

/-- Settles O11: a taken byte is counted and the cursor was not full; an error and a wait leave the cursor alone. -/
theorem onlyAnAcceptedByteMovesTheCursor : Obligations.OnlyAnAcceptedByteMovesTheCursor := by
  unfold Obligations.OnlyAnAcceptedByteMovesTheCursor
  intro s t hr ht
  obtain ⟨u, hu, rfl⟩ := stageBeat_of_step hr ht
  rw [State.tick_pc]
  refine ⟨fun b ha => ?_, fun hno => ?_⟩
  · rw [eq_takeAnswer_of_stageBeat hu ha, State.takeAnswer, takeByte_pc ha.1]
    exact advancePc_toNat (pc_ne_allOnes_of_stageBeat hu ha)
  · rcases stageBeat_cases hu with ⟨a, ha, rfl⟩ | ⟨-, rfl⟩
    · cases a with
      | byte b => exact absurd ha (hno b)
      | eos => rfl
      | unreadable => rfl
    · rfl

/-- Settles O30: of the answers only a byte can change `x`, and of the bytes only the sixteenth does. -/
theorem onlyTheSixteenthByteWritesTheRegisters : Obligations.OnlyTheSixteenthByteWritesTheRegisters := by
  unfold Obligations.OnlyTheSixteenthByteWritesTheRegisters
  intro s t hr ht hne
  obtain ⟨u, hu, rfl⟩ := stageBeat_of_step hr ht
  rw [State.tick_x] at hne ⊢
  rcases stageBeat_cases hu with ⟨a, ha, rfl⟩ | ⟨-, rfl⟩
  · cases a with
    | byte b =>
      obtain ⟨hs, hk, hx⟩ := takeByte_x_of_ne hne
      exact ⟨hs, hk, ⟨b, ha⟩, hx⟩
    | eos => exact absurd rfl hne
    | unreadable => exact absurd rfl hne
  · exact absurd rfl hne

/-- Settles O38: RESET gives `State.restart`, which meets the invariants whatever the state before it. -/
theorem resetMeetsTheInvariants : Obligations.ResetMeetsTheInvariants :=
  ⟨inv_reset, fun s _ h => Host.Outcome.next.inj h ▸ inv_restart s⟩

/-- Settles O43: the observation is decided by the stage, and every result port is refused outside DONE. -/
theorem nothingPartialIsExposed : Obligations.NothingPartialIsExposed := by
  unfold Obligations.NothingPartialIsExposed
  refine fun s => ⟨fun hs => by rw [State.obs, hs], fun hs => ?_, fun hs => ?_⟩
  · rcases hs with hs | hs | hs <;> rw [State.obs, hs]
  · have hport {α : Type} (v : Option α) : s.atDone v = .error .hostReadUnspecified :=
      State.atDone_of_not_done hs v
    exact ⟨hport _, hport _, hport _, hport _, hport _, hport _, hport _, hport _, hport _, hport _, hport _, hport _,
      portPrgData_of_not_done hs, portChrData_of_not_done hs⟩

/-- Settles O57: the ports are the signals themselves, the two families of codes are injective, and at FAIL the
invariants record an error. -/
theorem statusPortsCarryTheControlState : Obligations.StatusPortsCarryTheControlState := by
  unfold Obligations.StatusPortsCarryTheControlState
  refine ⟨fun s => ⟨rfl, rfl, rfl, rfl, rfl⟩, statusPorts_eq_iff,
    fun s => ⟨State.portErr_of_fail, State.portErr_of_not_fail⟩, fun s t hs ht => ?_,
    fun _ _ h => h.portErr_ne_none_code⟩
  rw [State.portErr_of_fail hs, State.portErr_of_fail ht, Except.ok.injEq, ErrKind.code_inj]

end Sys2Proof.Safety
end

section
/-! Proofs about the Header Decoder (40_header_decoder.md R110, R111, R120): the HDEC beat byte by byte with its
frame, the padding beat, and the field decoders, each with its frame and all together in any order. -/

namespace Sys2Proof.Machine

open Sys2Proof.Safety

/-! ### The HDEC beat -/

/-- What the sixteenth header byte does, field by field (R110, R111). -/
theorem finishHeader_eq (s : State) : s.finishHeader =
    { s with
      x := (decodeHeader s.headerBytes).regs
      stage := afterHeader (decodeHeader s.headerBytes).prgRomSize (decodeHeader s.headerBytes).chrRomSize } := rfl

/-- What no header byte touches (10_state.md R26 to R28). -/
theorem acceptHeaderByte_frame (k : BitVec 23) (b : Byte) (s : State) :
    (s.acceptHeaderByte k b).err = s.err ∧ (s.acceptHeaderByte k b).prgLen = s.prgLen ∧
      (s.acceptHeaderByte k b).chrLen = s.chrLen ∧ (s.acceptHeaderByte k b).prg = s.prg ∧
      (s.acceptHeaderByte k b).chr = s.chr ∧ (s.acceptHeaderByte k b).epoch = s.epoch ∧
      (s.acceptHeaderByte k b).pins = s.pins ∧ (s.acceptHeaderByte k b).feed = s.feed := by
  by_cases hk : k = 15#23
  · rw [hk, acceptHeaderByte_last, finishHeader_eq]
    exact ⟨rfl, rfl, rfl, rfl, rfl, rfl, rfl, rfl⟩
  · rw [acceptHeaderByte_eq_store hk]
    exact ⟨rfl, rfl, rfl, rfl, rfl, rfl, rfl, rfl⟩

/-- Only the sixteenth header byte writes the registers (10_state.md R22). -/
theorem acceptHeaderByte_x_of_ne {k : BitVec 23} {b : Byte} {s : State} (h : (s.acceptHeaderByte k b).x ≠ s.x) :
    k = 15#23 := by
  by_contra hk
  exact h (by rw [acceptHeaderByte_eq_store hk]; rfl)

/-- Only the byte at offset `j` writes cell `j` of `hbuf` (10_state.md R29). -/
theorem acceptHeaderByte_hbuf_of_ne {k : BitVec 23} {b : Byte} {s : State} {j : Fin 9}
    (h : (s.acceptHeaderByte k b).hbuf.get j ≠ s.hbuf.get j) : k.toNat = j.val := by
  by_cases hk : k = 15#23
  · rw [hk, acceptHeaderByte_last, finishHeader_eq] at h
    exact absurd rfl h
  · rw [acceptHeaderByte_eq_store hk, storeHeaderByte_get] at h
    by_contra hj
    exact h (if_neg (Ne.symm hj))

/-! ### The field decoders -/

/-- The registers after the field decoders of these rows have run over a header whose record is `y`: a field comes
from `y` if its own row has run, and is as it was otherwise; `execList_fieldDecoders` ties it to the model. -/
def HeaderRegs.written (y : HeaderRegs) (rs : List Row) (x : HeaderRegs) : HeaderRegs where
  formatTag := if .hdrTag ∈ rs then y.formatTag else x.formatTag
  prgRomSize := if .hdrPrgsz ∈ rs then y.prgRomSize else x.prgRomSize
  chrRomSize := if .hdrChrsz ∈ rs then y.chrRomSize else x.chrRomSize
  prgRamSize := if .hdrPrgram ∈ rs then y.prgRamSize else x.prgRamSize
  mirroring := if .hdrMirr ∈ rs then y.mirroring else x.mirroring
  hasPersistentStorage := if .hdrPers ∈ rs then y.hasPersistentStorage else x.hasPersistentStorage
  hasTrainer := if .hdrTrnr ∈ rs then y.hasTrainer else x.hasTrainer
  mapperNumber := if .hdrMapper ∈ rs then y.mapperNumber else x.mapperNumber

theorem written_nil (y x : HeaderRegs) : y.written [] x = x := by
  simp [HeaderRegs.written]

/-- The rows' order does not matter: each field asks only whether its row has run. -/
theorem written_perm {rs rs' : List Row} (h : rs.Perm rs') (y x : HeaderRegs) : y.written rs x = y.written rs' x := by
  simp only [HeaderRegs.written, h.mem_iff]

/-- One field: a row that has run first and rows that run after it. -/
theorem ite_mem_cons {α : Type} (r c : Row) (rs : List Row) (a b : α) :
    (if r ∈ rs then a else if r ∈ [c] then a else b) = if r ∈ c :: rs then a else b := by
  by_cases hr : r ∈ rs
  · rw [if_pos hr, if_pos (List.mem_cons_of_mem c hr)]
  · simp only [hr, if_false, List.mem_cons, or_false, List.not_mem_nil]

theorem written_cons (y : HeaderRegs) (c : Row) (rs : List Row) (x : HeaderRegs) :
    y.written rs (y.written [c] x) = y.written (c :: rs) x := by
  simp only [HeaderRegs.written, ite_mem_cons]

/-- The record of the first nine bytes of an HDR16 word. -/
def headerRecord (h : BitVec 128) : HeaderRecord := decodeHeader (Vector.ofFn fun k : Fin 9 => headerByte h k)

/-- The field decoders of a header that write a register, in the table's order. -/
def fieldDecoders (h : BitVec 128) : List Instr :=
  [decodeTag h, decodePrgsz h, decodeChrsz h, decodeMirr h, decodePers h, decodeTrnr h, decodeMapper h, decodePrgram h]

/-- Each of the eight field decoders of a header writes its own field of the header's record: a masked operand holds
every bit its rule reads (30_encoding.md R82, 40_header_decoder.md R112 to R119). -/
theorem exec_fieldDecoder_eq {h : BitVec 128} {i : Instr} (hi : i ∈ fieldDecoders h) (s : State) :
    exec i s = .next (s.setX ((headerRecord h).regs.written [i.row] s.x)) := by
  have hmirr : mirrValue Config.ignmirrTest (headerByte h 6 &&& mirrMask) = (headerRecord h).mirroring :=
    mirrValue_masked _ _
  have hpers : persValue (headerByte h 6 &&& persMask) = (headerRecord h).hasPersistentStorage := persValue_masked _
  have htrnr : trnrValue Config.trainerTest (headerByte h 6 &&& trnrMask) = (headerRecord h).hasTrainer :=
    trnrValue_masked _ _
  have hmapper : mapperValue (headerByte h 6 &&& nibbleMask) (headerByte h 7 &&& nibbleMask) =
      (headerRecord h).mapperNumber := mapperValue_masked _ _
  simp only [fieldDecoders, List.mem_cons, List.not_mem_nil, or_false] at hi
  rcases hi with rfl | rfl | rfl | rfl | rfl | rfl | rfl | rfl
  · rfl
  · rfl
  · rfl
  · simp only [decodeMirr, exec, execHdrMirr, hmirr]; rfl
  · simp only [decodePers, exec, execHdrPers, hpers]; rfl
  · simp only [decodeTrnr, exec, execHdrTrnr, htrnr]; rfl
  · simp only [decodeMapper, exec, execHdrMapper, hmapper]; rfl
  · rfl

/-- A list of field decoders of one header writes the fields of its rows, by induction on the list. -/
theorem execList_fieldDecoders {h : BitVec 128} (is : List Instr) (his : ∀ i ∈ is, i ∈ fieldDecoders h) (s : State) :
    execList is s = .next (s.setX ((headerRecord h).regs.written (is.map Instr.row) s.x)) := by
  induction is generalizing s with
  | nil => rw [List.map_nil, written_nil]; rfl
  | cons i is ih =>
    obtain ⟨hi, his⟩ := List.forall_mem_cons.1 his
    rw [execList, exec_fieldDecoder_eq hi, onNext_next, ih his, State.setX_x, written_cons]
    rfl

end Sys2Proof.Machine

namespace Sys2Proof.Safety

open Sys2Proof Sys2Proof.Machine

/-! ### The obligations -/

/-- Settles O12: the byte is taken by a store at its offset, which changes the one cell that exists there, if any. -/
theorem hdecKeepsOrDiscardsTheByte : Obligations.HdecKeepsOrDiscardsTheByte := by
  unfold Obligations.HdecKeepsOrDiscardsTheByte
  intro s b hs ha hpc
  have hk : s.pc ≠ 15#23 := fun h => absurd (h ▸ hpc) (by decide)
  have hfull : s.pc ≠ BitVec.allOnes 23 := fun h => absurd (h ▸ hpc) (by decide)
  refine ⟨s.advancePc.storeHeaderByte s.pc.toNat b, ?_, advancePc_toNat hfull, storeHeaderByte_get s.advancePc _ b, rfl⟩
  rw [exec_hdec_of_byte hs ha (by omega), takeByte_of_hdr hs, acceptHeaderByte_eq_store hk]

/-- Settles O13: the sixteenth byte is taken by `State.finishHeader`. -/
theorem hdecLatchesTheRecordAtTheSixteenthByte : Obligations.HdecLatchesTheRecordAtTheSixteenthByte := by
  unfold Obligations.HdecLatchesTheRecordAtTheSixteenthByte
  intro s b hs ha hk
  have hadv : s.advancePc = { s with pc := 16#23 } := by rw [State.advancePc, hk]; rfl
  have hbytes : ({ s with pc := 16#23 } : State).headerBytes = s.headerBytes := rfl
  rw [exec_hdec_of_byte hs ha (by rw [hk]; decide), takeByte_of_hdr hs, hk, acceptHeaderByte_last, hadv,
    finishHeader_eq, hbytes]

/-- Settles O15: HDEC takes a byte, raises an error or does nothing; the fields a byte touches are those of
`acceptHeaderByte`. -/
theorem hdecFrame : Obligations.HdecFrame := by
  unfold Obligations.HdecFrame
  intro s t ht
  rcases execHdec_cases ht with ⟨b, ha, -, rfl⟩ | ⟨-, rfl⟩ | ⟨-, rfl⟩ | ⟨-, rfl⟩
  · obtain ⟨herr, hp, hc, hprg, hchr, hepoch, hpins, hfeed⟩ := acceptHeaderByte_frame s.pc b s.advancePc
    exact ⟨fun hx => ⟨acceptHeaderByte_x_of_ne hx, b, ha⟩, fun k hk => ⟨acceptHeaderByte_hbuf_of_ne hk, b, ha⟩,
      fun he => absurd herr he, hp, hc, fun a => congrArg (Memory.read · a) hprg,
      fun a => congrArg (Memory.read · a) hchr, hepoch, hpins, hfeed⟩
  · simp
  · simp
  · simp

/-- Settles O24: the padding beat is the waiting, failing or counting beat, and at offsets 9 to 14 HDEC does nothing
else with its byte either. -/
theorem paddingIsConsumedAndDiscarded : Obligations.PaddingIsConsumedAndDiscarded := by
  unfold Obligations.PaddingIsConsumedAndDiscarded
  refine ⟨fun s b ha hfull => ⟨s.advancePc, beat_of_byte _ _ (fetchNext_of_byte ha.1 ha.2 hfull),
    advancePc_toNat hfull, rfl⟩, fun s ha => beat_of_eos _ _ (fetchNext_of_eos ha.1 ha.2),
    fun s ha => beat_of_unreadable _ _ (fetchNext_of_unreadable ha.1 ha.2), fun s h9 h14 => ?_⟩
  have hk : s.pc ≠ 15#23 := fun h => absurd (h ▸ h14) (by decide)
  refine congrArg (beat .truncatedHeader · s) (funext₂ fun b t => ?_)
  rw [acceptHeaderByte_of_padding h9, if_neg hk]

/-- Settles O25: each field asks only whether its row has run (`HeaderRegs.written`), and in any order all eight
have. -/
theorem fieldDecodersInAnyOrderGiveTheRecord : Obligations.FieldDecodersInAnyOrderGiveTheRecord := by
  unfold Obligations.FieldDecodersInAnyOrderGiveTheRecord
  intro h s is his
  rw [execList_fieldDecoders is (fun i hi => his.subset hi) s, written_perm (his.map Instr.row)]
  rfl

/-- Settles O26: each field decoder answers one update of `x`, and it is of that field. -/
theorem fieldDecoderFrame : Obligations.FieldDecoderFrame := by
  unfold Obligations.FieldDecoderFrame
  refine fun s t => ⟨fun t0 t1 t2 t3 h => ?_, fun u h => ?_, fun u h => ?_, fun a h => ?_, fun a h => ?_,
    fun a h => ?_, fun a b h => ?_, fun u h => ?_⟩
  all_goals
    obtain rfl := Host.Outcome.next.inj h
    rfl

end Sys2Proof.Safety
end

section
/-! Proofs about the region beats (41_region_reader.md R130, R132, R135) and about where a beat stops (10_state.md
R24, R31, 30_encoding.md R90). -/

namespace Sys2Proof.Machine

open Sys2Proof.Safety

/-! ### A length counter that does not wrap -/

theorem add_one_toNat_of_lt {w : Nat} {a : BitVec w} (h : a.toNat + 1 < 2 ^ w) : (a + 1#w).toNat = a.toNat + 1 := by
  rw [BitVec.toNat_add, BitVec.toNat_ofNat, Nat.add_mod_mod, Nat.mod_eq_of_lt h]

theorem add_one_eq_iff_of_lt {w : Nat} {a : BitVec w} (h : a.toNat + 1 < 2 ^ w) (n : BitVec w) :
    a + 1#w = n ↔ a.toNat + 1 = n.toNat := by
  rw [← BitVec.toNat_inj, add_one_toNat_of_lt h]

theorem afterPrg_eq_ite (c : BitVec 8) : afterPrg c = if 0 < c.toNat then .chr else .done := by
  simp only [afterPrg, chrPresent_iff]

/-! ### A region beat that accepts its byte -/

theorem execRdprg_of_byte {s : State} {b : Byte} (ha : Answering s (.byte b)) (hfull : s.pc ≠ BitVec.allOnes 23)
    (hlen : s.prgLen.toNat < Config.prgBufBytes) : execRdprg s = .next (s.advancePc.acceptPrgByte b) :=
  (beat_of_byte _ _ (fetchNext_of_byte ha.1 ha.2 hfull)).trans (if_pos hlen)

theorem execRdchr_of_byte {s : State} {b : Byte} (ha : Answering s (.byte b)) (hfull : s.pc ≠ BitVec.allOnes 23)
    (hlen : s.chrLen.toNat < Config.chrBufBytes) : execRdchr s = .next (s.advancePc.acceptChrByte b) :=
  (beat_of_byte _ _ (fetchNext_of_byte ha.1 ha.2 hfull)).trans (if_pos hlen)

theorem acceptPrgByte_prg (b : Byte) (s : State) : (s.acceptPrgByte b).prg = s.prg.write s.prgLen.toNat b := by
  rw [acceptPrgByte_eq_setStage]; rfl

theorem acceptChrByte_chr (b : Byte) (s : State) : (s.acceptChrByte b).chr = s.chr.write s.chrLen.toNat b := by
  rw [acceptChrByte_eq_setStage]; rfl

/-! ### The stops of a beat -/

theorem beat_of_cursorFull {s : State} {b : Byte} (hreq : s.srcReq = true)
    (hpres : s.pins.presented = .answer (.byte b)) (hfull : s.pc = BitVec.allOnes 23) (short : ErrKind)
    (onByte : Byte → State → Result) : beat short onByte s = .fault .cursorFull := by
  have hf : s.fetchNext = .cursorFull := by simp [State.fetchNext, hreq, hpres, hfull]
  rw [beat, hf]

theorem presented_of_kind_three {p : Pins} (hack : p.srcAck = true) (hkind : p.srcKind = 3#2) :
    p.presented = .notAnAnswer := by
  simp [Pins.presented, hack, hkind]

theorem beat_of_kind_three {s : State} (hreq : s.srcReq = true) (hack : s.pins.srcAck = true)
    (hkind : s.pins.srcKind = 3#2) (short : ErrKind) (onByte : Byte → State → Result) :
    beat short onByte s = .refused .notAnAnswer := by
  have hf : s.fetchNext = .notAnAnswer := by simp [State.fetchNext, hreq, presented_of_kind_three hack hkind]
  rw [beat, hf]

/-- A beat with room in the cursor and an answer code that is one completes, if what it does with a byte does. -/
theorem beat_completes_of_room {s : State} (hroom : ∀ b, Answering s (.byte b) → s.pc ≠ BitVec.allOnes 23)
    (hcode : ¬ (s.srcReq = true ∧ s.pins.srcAck = true ∧ s.pins.srcKind = 3#2)) {short : ErrKind}
    {onByte : Byte → State → Result}
    (hb : ∀ b, Answering s (.byte b) → ∃ t, onByte b s.advancePc = .next t) : ∃ t, beat short onByte s = .next t := by
  refine beat_completes (fun hf => ?_) (fun hf => hcode (fetchNext_eq_notAnAnswer hf)) fun b hf => ?_
  · obtain ⟨hreq, hfull, b, hpres⟩ := fetchNext_eq_cursorFull hf
    exact hroom b ⟨hreq, hpres⟩ hfull
  · obtain ⟨hreq, hpres, -⟩ := fetchNext_eq_byte hf
    exact hb b ⟨hreq, hpres⟩

end Sys2Proof.Machine

namespace Sys2Proof.Safety

open Sys2Proof Sys2Proof.Machine

/-! ### The obligations -/

/-- Settles O31: the accepted byte is `State.acceptPrgByte`, and a counter below the buffer's size does not wrap. -/
theorem rdprgCopiesOneByte : Obligations.RdprgCopiesOneByte := by
  unfold Obligations.RdprgCopiesOneByte
  intro s b hs ha hfull hlen
  have hwrap : s.prgLen.toNat + 1 < 2 ^ 22 := by rw [Config.prgBufBytes] at hlen; omega
  refine ⟨_, execRdprg_of_byte ha hfull hlen, ?_⟩
  rw [acceptPrgByte_eq_setStage]
  refine ⟨advancePc_toNat hfull, add_one_toNat_of_lt hwrap, fun a => Memory.read_write s.prg _ a b, ?_, rfl⟩
  simp only [← add_one_eq_iff_of_lt hwrap, ← afterPrg_eq_ite, ← hs]
  rfl

/-- Settles O32: the accepted byte is `State.acceptChrByte`, and a counter below the buffer's size does not wrap. -/
theorem rdchrCopiesOneByte : Obligations.RdchrCopiesOneByte := by
  unfold Obligations.RdchrCopiesOneByte
  intro s b hs ha hfull hlen
  have hwrap : s.chrLen.toNat + 1 < 2 ^ 21 := by rw [Config.chrBufBytes] at hlen; omega
  refine ⟨_, execRdchr_of_byte ha hfull hlen, ?_⟩
  rw [acceptChrByte_eq_setStage]
  refine ⟨advancePc_toNat hfull, add_one_toNat_of_lt hwrap, fun a => Memory.read_write s.chr _ a b, ?_, rfl⟩
  simp only [← chrBytes_toNat, ← add_one_eq_iff_of_lt hwrap, ← hs]
  rfl

/-- Settles O33: a region beat takes a byte, raises an error or does nothing; a taken byte is one write at the length
counter. -/
theorem regionFrame : Obligations.RegionFrame := by
  unfold Obligations.RegionFrame
  refine fun s t => ⟨fun ht => ?_, fun ht => ?_⟩
  · rcases execRdprg_cases ht with ⟨b, ha, -, -, rfl⟩ | ⟨-, rfl⟩ | ⟨-, rfl⟩ | ⟨-, rfl⟩
    · obtain ⟨-, herr, hhbuf, hx, hc, hchr, hepoch, hpins, hfeed⟩ := acceptPrgByte_frame b s.advancePc
      exact ⟨fun a hne => ⟨(read_of_changed (.inr (acceptPrgByte_prg b s.advancePc)) hne).1, b, ha⟩,
        fun a => congrArg (Memory.read · a) hchr, hc, hx, hhbuf, fun he => absurd herr he, hepoch, hpins, hfeed⟩
    · simp
    · simp
    · simp
  · rcases execRdchr_cases ht with ⟨b, ha, -, -, rfl⟩ | ⟨-, rfl⟩ | ⟨-, rfl⟩ | ⟨-, rfl⟩
    · obtain ⟨-, herr, hhbuf, hx, hp, hprg, hepoch, hpins, hfeed⟩ := acceptChrByte_frame b s.advancePc
      exact ⟨fun a hne => ⟨(read_of_changed (.inr (acceptChrByte_chr b s.advancePc)) hne).1, b, ha⟩,
        fun a => congrArg (Memory.read · a) hprg, hp, hx, hhbuf, fun he => absurd herr he, hepoch, hpins, hfeed⟩
    · simp
    · simp
    · simp

/-- Settles O37: each operation is one `beat`; it stops at a full cursor and at `src_kind` = 3 whatever it does with a
byte, and the region beats stop at the end of their buffer. -/
theorem whereABeatStops : Obligations.WhereABeatStops := by
  unfold Obligations.WhereABeatStops
  refine fun s => ⟨fun hreq => ⟨fun b hpres hfull => ?_, fun b hpres hfull => ⟨fun hlen => ?_, fun hlen => ?_⟩,
    fun hack hkind => ?_⟩, fun hroom hcode => ⟨?_, ?_, fun hlen => ?_, fun hlen => ?_⟩⟩
  · have hstop := beat_of_cursorFull hreq hpres hfull
    exact ⟨hstop _ _, hstop _ _, hstop _ _, hstop _ _⟩
  · exact (beat_of_byte _ _ (fetchNext_of_byte hreq hpres hfull)).trans (if_neg (Nat.not_lt.2 hlen))
  · exact (beat_of_byte _ _ (fetchNext_of_byte hreq hpres hfull)).trans (if_neg (Nat.not_lt.2 hlen))
  · have hstop := beat_of_kind_three hreq hack hkind
    exact ⟨hstop _ _, hstop _ _, hstop _ _, hstop _ _⟩
  · exact beat_completes_of_room hroom hcode fun b _ => ⟨_, rfl⟩
  · exact beat_completes_of_room hroom hcode fun b _ => ⟨_, rfl⟩
  · exact beat_completes_of_room hroom hcode fun b ha => ⟨_, if_pos (hlen b ha)⟩
  · exact beat_completes_of_room hroom hcode fun b ha => ⟨_, if_pos (hlen b ha)⟩

end Sys2Proof.Safety
end

section
/-! Proofs about the whole machine under the invariants (20_memory.md R52, R53, R70 to R72, 10_state.md R34, R37) and
about DECODE as the run of steps (42_image_assembler.md R140, R154). -/

namespace Sys2Proof.Machine

open Sys2Proof.Safety

/-! ### The buffer ports at DONE -/

theorem portPrgData_of_lt {s : State} {n : BitVec 22} {a : BitVec 22} {b : Byte} (hs : s.stage = .done)
    (hx : s.x.prgRomSize = some n) (hlen : s.prgLen = n) (ha : a < s.prgLen) (hb : s.prg.read a.toNat = some b) :
    s.portPrgData a = .ok b := by
  have hn : prgPresent n = true := (prgPresent_iff n).2 (by rw [hlen, BitVec.lt_def] at ha; omega)
  rw [State.portPrgData, if_pos ⟨by rw [hx, Option.map_some, hn], ha⟩, hb]
  exact State.atDone_of_done hs b

theorem portChrData_of_lt {s : State} {u : BitVec 8} {a : BitVec 21} {b : Byte} (hs : s.stage = .done)
    (hx : s.x.chrRomSize = some u) (hlen : s.chrLen = chrBytes u) (ha : a < s.chrLen)
    (hb : s.chr.read a.toNat = some b) : s.portChrData a = .ok b := by
  have hu : chrPresent u = true :=
    (chrPresent_iff u).2 (by rw [hlen, BitVec.lt_def, chrBytes_toNat] at ha; omega)
  rw [State.portChrData, if_pos ⟨by rw [hx, Option.map_some, hu], ha⟩, hb]
  exact State.atDone_of_done hs b

theorem portPrgData_of_le {s : State} {a : BitVec 22} (ha : s.prgLen ≤ a) :
    s.portPrgData a = .error .hostReadUnspecified :=
  if_neg fun h => absurd h.2 (BitVec.not_lt.2 ha)

theorem portChrData_of_le {s : State} {a : BitVec 21} (ha : s.chrLen ≤ a) :
    s.portChrData a = .error .hostReadUnspecified :=
  if_neg fun h => absurd h.2 (BitVec.not_lt.2 ha)

/-! ### DECODE, step by step -/

/-- A step takes the next levels of the input ports. -/
theorem step_pins {s t : State} (h : step s = .next t) : t.pins = s.feed.headD Pins.idle := by
  have hfeed {u : State} (hu : u.feed = s.feed) : u.tick.pins = s.feed.headD Pins.idle := by
    rw [State.tick_pins, hu]
  rcases step_cases h with ⟨-, rfl⟩ | ⟨-, u, hu, rfl⟩
  · exact hfeed rfl
  · rcases stageBeat_cases hu with ⟨a, -, rfl⟩ | ⟨-, rfl⟩
    · exact hfeed (takeAnswer_feed s a)
    · exact hfeed rfl

/-- With no moment known after this one, the run takes this step and waits there (42_image_assembler.md R140). -/
theorem runFrom_nil_of_not_terminal {s : State} (h : s.stage.terminal = false) : runFrom [] s = step s := by
  rw [runFrom, if_neg (by simp [h]), step_eq_moment]

/-- The run goes on from the next step. -/
theorem runFrom_cons_of_not_terminal (p : Pins) (feed : List Pins) {s : State} (h : s.stage.terminal = false) :
    runFrom (p :: feed) s = onNext (step s) (runFrom feed) := by
  rw [runFrom, if_neg (by simp [h]), step_eq_moment]
  cases moment s with
  | next t => rfl
  | fault e => rfl
  | refused e => rfl

theorem eq_of_runFrom_of_terminal {feed : List Pins} {s t : State} (hs : s.stage.terminal = true)
    (h : runFrom feed s = .next t) : t = s :=
  Host.Outcome.next.inj (h.symm.trans (runFrom_of_terminal feed hs))

/-- The first `n` steps from `s` start in a stage that is not terminal. -/
def BusyBefore (n : Nat) (s : State) : Prop := ∀ m, m < n → ∃ u, runsTo m s u ∧ u.stage.terminal = false

theorem BusyBefore.zero (s : State) : BusyBefore 0 s := fun m hm => absurd hm m.not_lt_zero

theorem BusyBefore.succ {n : Nat} {s u : State} (hs : s.stage.terminal = false) (hstep : step s = .next u)
    (h : BusyBefore n u) : BusyBefore (n + 1) s := by
  intro m hm
  cases m with
  | zero => exact ⟨s, run_zero s, hs⟩
  | succ m =>
    obtain ⟨v, hrun, hv⟩ := h m (Nat.lt_of_succ_lt_succ hm)
    exact ⟨v, (run_succ_next hstep).trans hrun, hv⟩

/-- The run along the moments ahead is the steps to the first terminal stage or to the last moment, by induction on
the moments (R140). -/
theorem runsTo_of_runFrom (feed : List Pins) {s t : State} (hf : s.feed = feed) (h : runFrom feed s = .next t) :
    ∃ n, n ≤ feed.length + 1 ∧ runsTo n s t ∧ (t.stage.terminal = true ∨ n = feed.length + 1) ∧
      BusyBefore n s := by
  induction feed generalizing s with
  | nil =>
    cases hs : s.stage.terminal with
    | true =>
      obtain rfl := eq_of_runFrom_of_terminal hs h
      exact ⟨0, Nat.zero_le _, run_zero t, .inl hs, .zero t⟩
    | false =>
      have hstep := (runFrom_nil_of_not_terminal hs).symm.trans h
      exact ⟨1, Nat.le_refl 1, run_succ_next hstep, .inr rfl, .succ hs hstep (.zero t)⟩
  | cons p ps ih =>
    cases hs : s.stage.terminal with
    | true =>
      obtain rfl := eq_of_runFrom_of_terminal hs h
      exact ⟨0, Nat.zero_le _, run_zero t, .inl hs, .zero t⟩
    | false =>
      rw [runFrom_cons_of_not_terminal p ps hs] at h
      obtain ⟨u, hstep, hrest⟩ := onNext_eq_next h
      obtain ⟨n, hn, hrun, hend, hbusy⟩ := ih (by rw [step_feed hstep, hf, List.tail_cons]) hrest
      exact ⟨n + 1, Nat.succ_le_succ hn, (run_succ_next hstep).trans hrun, hend.imp_right (congrArg Nat.succ),
        .succ hs hstep hbusy⟩

theorem runsTo_unique {n : Nat} {s t u : State} (h : runsTo n s t) (h' : runsTo n s u) : t = u :=
  Host.Outcome.next.inj (h.symm.trans h')

end Sys2Proof.Machine

namespace Sys2Proof.Safety

open Sys2Proof Sys2Proof.Machine

/-! ### Every proper moment steps -/

theorem srcKind_ne_three_of_proper {p : Pins} (h : proper p = true) (hack : p.srcAck = true) : p.srcKind ≠ 3#2 := by
  simpa [proper, hack] using h

/-- Under the invariants every moment of a source that keeps to the answer codes has a next state: a reset, a wait or
a taken answer (20_memory.md R71, R72). -/
theorem Inv.step_of_proper {bs : List Byte} {s : State} (h : Inv bs s) (hp : proper s.pins = true) :
    ∃ t, step s = .next t := by
  cases hr : s.pins.rst with
  | true => exact ⟨_, step_of_rst hr⟩
  | false =>
    cases hs : s.stage.terminal with
    | true => exact ⟨_, step_of_terminal hs hr⟩
    | false =>
      have hreq := srcReq_of_not_terminal hs
      cases hpres : s.pins.presented with
      | nothing => exact ⟨_, step_of_stageBeat hr (stageBeat_of_nothing hreq hpres)⟩
      | answer a => exact ⟨_, h.step_of_answering hr ⟨hreq, hpres⟩⟩
      | notAnAnswer =>
        obtain ⟨hack, hkind⟩ := presented_eq_notAnAnswer hpres
        exact absurd hkind (srcKind_ne_three_of_proper hp hack)

/-- A run under the invariants completes along proper moments, resets among them, by induction on the moments. -/
theorem Inv.runFrom_of_proper (feed : List Pins) {bs : List Byte} {s : State} (h : Inv bs s) (hf : s.feed = feed)
    (hp : ∀ p ∈ s.pins :: feed, proper p = true) : ∃ t, runFrom feed s = .next t := by
  induction feed generalizing bs s with
  | nil =>
    cases hs : s.stage.terminal with
    | true => exact ⟨s, runFrom_of_terminal [] hs⟩
    | false =>
      obtain ⟨t, ht⟩ := h.step_of_proper (hp _ List.mem_cons_self)
      exact ⟨t, (runFrom_nil_of_not_terminal hs).trans ht⟩
  | cons p ps ih =>
    cases hs : s.stage.terminal with
    | true => exact ⟨s, runFrom_of_terminal _ hs⟩
    | false =>
      obtain ⟨hnow, hahead⟩ := List.forall_mem_cons.1 hp
      obtain ⟨u, hstep⟩ := h.step_of_proper hnow
      obtain ⟨-, hkeeps⟩ := everyStepKeepsTheInvariants
      have hpins : u.pins = p := by rw [step_pins hstep, hf]; rfl
      obtain ⟨t, ht⟩ := ih (hkeeps bs s u h hstep) (by rw [step_feed hstep, hf]; rfl) (hpins ▸ hahead)
      exact ⟨t, by rw [runFrom_cons_of_not_terminal p ps hs, hstep]; exact ht⟩

/-! ### The obligations -/

/-- Settles O40: a proper moment steps (`Inv.step_of_proper`), and the invariants bound the cursor and, in each region
stage, the length counter by a size no larger than the buffer. -/
theorem noStepFaultsUnderTheInvariants : Obligations.NoStepFaultsUnderTheInvariants := by
  unfold Obligations.NoStepFaultsUnderTheInvariants
  intro bs s h hp
  have hpc : s.pc.toNat ≤ 0x5FA010 := h.pc_le
  refine ⟨h.step_of_proper hp, by omega, fun hs => ?_, fun hs => ?_⟩
  · have hph := h.pastHeader (.inl hs)
    obtain ⟨hlt, -⟩ := h.prg hs _ hph.x_prgRomSize
    rw [hph.prgRomSize_eq]
    exact ⟨hlt, prgRomSize_le _⟩
  · have hph := h.pastHeader (.inr (.inl hs))
    obtain ⟨-, hlt⟩ := h.chr hs _ _ hph.x_prgRomSize hph.x_chrRomSize
    rw [hph.chrRomSize_eq, ← chrBytes_toNat]
    exact ⟨BitVec.lt_def.1 hlt, chrBytes_le _⟩

/-- Settles O44: below the length the cell is written and holds the stream's byte, and the port gives it. -/
theorem hostReadsTheStreamBytesAtDone : Obligations.HostReadsTheStreamBytesAtDone := by
  unfold Obligations.HostReadsTheStreamBytesAtDone
  intro bs s h hs
  have hph := h.pastHeader (.inr (.inr hs))
  obtain ⟨hp, hc⟩ := h.done hs _ _ hph.x_prgRomSize hph.x_chrRomSize
  obtain ⟨-, hprg⟩ := h.prg_written
  obtain ⟨-, hchr⟩ := h.chr_written
  refine ⟨fun a ha => ?_, fun a ha => ?_, fun a => portPrgData_of_le, fun a => portChrData_of_le⟩
  · have ha' := BitVec.lt_def.1 ha
    obtain ⟨b, hb⟩ := Option.isSome_iff_exists.1 ((hprg a.toNat).2 ha')
    exact ⟨b, portPrgData_of_lt hs hph.x_prgRomSize hp ha hb, (hph.prg_bytes _ ha').symm.trans hb⟩
  · have ha' := BitVec.lt_def.1 ha
    obtain ⟨b, hb⟩ := Option.isSome_iff_exists.1 ((hchr a.toNat).2 ha')
    rw [hph.prgRomSize_eq]
    exact ⟨b, portChrData_of_lt hs hph.x_chrRomSize hc ha hb, (hph.chr_bytes _ ha').symm.trans hb⟩

/-- Settles O58: at DONE the registers hold the header's record and the counters its sizes. -/
theorem resultPortsAnswerAtDone : Obligations.ResultPortsAnswerAtDone := by
  unfold Obligations.ResultPortsAnswerAtDone
  intro bs s h hs
  have hph := h.pastHeader (.inr (.inr hs))
  obtain ⟨hp, hc⟩ := h.done hs _ _ hph.x_prgRomSize hph.x_chrRomSize
  have hport {α : Type} (f : HeaderRegs → Option α) {v : α} (hv : f (decodeHeader (firstNine bs)).regs = some v) :
      s.atDone (f s.x) = .ok v := by
    rw [hph.x, hv]
    exact State.atDone_of_done hs v
  exact ⟨hport HeaderRegs.formatTag rfl, hport HeaderRegs.prgRomSize rfl, hport HeaderRegs.chrRomSize rfl,
    hport HeaderRegs.prgRamSize rfl, hport (·.mirroring.map Mirroring.code) rfl,
    hport HeaderRegs.hasPersistentStorage rfl, hport HeaderRegs.hasTrainer rfl, hport HeaderRegs.mapperNumber rfl,
    hport (·.prgRomSize.map prgPresent) rfl, hport (·.chrRomSize.map chrPresent) rfl,
    State.atDone_of_done hs _, hp, State.atDone_of_done hs _, hc⟩

/-- Settles O46: DECODE is `runFrom` after a reset, and that is the run of steps (`runsTo_of_runFrom`). -/
theorem decodeIsTheRunOfSteps : Obligations.DecodeIsTheRunOfSteps :=
  fun s _ h => runsTo_of_runFrom s.feed (s := s.restart) rfl h

/-- Settles O47: the run from a reset completes (`Inv.runFrom_of_proper`). An answered run reaches a terminal stage
within `PC_MAX` + 1 steps (O45), and `DECODE` neither passes it by nor has fewer moments. -/
theorem decodeCompletes : Obligations.DecodeCompletes := by
  unfold Obligations.DecodeCompletes
  intro s hp
  obtain ⟨t, ht⟩ := (inv_restart s).runFrom_of_proper s.feed rfl hp
  refine ⟨t, ht, fun hans hlen => ?_⟩
  obtain ⟨k, v, hk, hrun', hv⟩ :=
    (inv_restart s).answered_run_ends s.feed rfl hans (by simpa using hlen)
  obtain ⟨n, -, hrun, hend, hbusy⟩ := runsTo_of_runFrom s.feed (s := s.restart) rfl ht
  rcases hend with hterm | hn
  · exact hterm
  · rcases Nat.lt_or_ge k n with hlt | hge
    · obtain ⟨u, hu, hbusy'⟩ := hbusy k hlt
      rw [runsTo_unique hu hrun', hv] at hbusy'
      cases hbusy'
    · obtain rfl : k = n := by simp at hk; omega
      rwa [runsTo_unique hrun hrun']

end Sys2Proof.Safety
end

section
/-! Proofs about whole runs of DECODE (42_image_assembler.md R151, 20_memory.md R64). A run over a list of
moments is `runOver`, which takes them one by one; leaving out the moments without an answer and flipping the trainer
bit of the stream are two inductions on that list. -/

namespace Sys2Proof.Machine

open Sys2Proof.Safety

/-! ### A run, moment by moment -/

/-- The run from `s` along these moments; DECODE over them is this run from a reset (`decode_withMoments`). -/
def runOver (ps : List Pins) (s : State) : Result := runFrom ps.tail (s.withMoments ps)

theorem decode_withMoments (s : State) (ps : List Pins) :
    exec .decode (s.withMoments ps) = runOver ps s.restart := rfl

theorem runOver_of_terminal (ps : List Pins) {s : State} (h : s.stage.terminal = true) :
    runOver ps s = .next (s.withMoments ps) :=
  runFrom_of_terminal _ (s := s.withMoments ps) h

/-- With no moment left the run stays where it is. -/
theorem runOver_nil (s : State) : runOver [] s = .next (s.withMoments []) := by
  cases hs : s.stage.terminal with
  | true => exact runOver_of_terminal [] hs
  | false =>
    exact (runFrom_nil_of_not_terminal (s := s.withMoments []) hs).trans (step_of_no_answer rfl rfl)

/-- A moment that steps leaves the run over the moments after it. -/
theorem runOver_cons {p : Pins} {ps : List Pins} {s u : State} (hs : s.stage.terminal = false)
    (hstep : step (s.withMoments (p :: ps)) = .next (u.withMoments ps)) : runOver (p :: ps) s = runOver ps u := by
  cases ps with
  | nil => exact (runFrom_nil_of_not_terminal (s := s.withMoments [p]) hs).trans (hstep.trans (runOver_nil u).symm)
  | cons q qs =>
    rw [runOver, List.tail_cons, runFrom_cons_of_not_terminal q qs (s := s.withMoments _) hs, hstep]
    rfl

/-- A run that goes on past a moment took a step there. -/
theorem step_of_runOver_cons {p : Pins} {ps : List Pins} {s t : State} (hs : s.stage.terminal = false)
    (h : runOver (p :: ps) s = .next t) : ∃ u, step (s.withMoments (p :: ps)) = .next u := by
  cases ps with
  | nil => exact ⟨t, (runFrom_nil_of_not_terminal (s := s.withMoments [p]) hs).symm.trans h⟩
  | cons q qs =>
    rw [runOver, List.tail_cons, runFrom_cons_of_not_terminal q qs (s := s.withMoments _) hs] at h
    obtain ⟨u, hu, -⟩ := onNext_eq_next h
    exact ⟨u, hu⟩

end Sys2Proof.Machine

namespace Sys2Proof.Safety

open Sys2Proof Sys2Proof.Machine

theorem Inv.step_withMoments_of_presented {bs : List Byte} {s : State} {p : Pins} {a : Answer} (h : Inv bs s)
    (hs : s.stage.terminal = false) (hr : p.rst = false) (hp : p.presented = .answer a) (ps : List Pins) :
    step (s.withMoments (p :: ps)) = .next ((s.takeAnswer a).withMoments ps) := by
  have ha : Answering (s.withMoments (p :: ps)) a := ⟨srcReq_of_not_terminal (s := s.withMoments _) hs, hp⟩
  rw [(h.withMoments (p :: ps)).step_of_answering hr ha, takeAnswer_withMoments, tick_withMoments_cons]

theorem Inv.runOver_answer {bs : List Byte} {s : State} (h : Inv bs s) (hs : s.stage.terminal = false) (a : Answer)
    (ps : List Pins) : runOver (a.pins :: ps) s = runOver ps (s.takeAnswer a) :=
  runOver_cons hs (h.step_withMoments hs a ps)

/-! ### Leaving out the moments without an answer -/

/-- The run over the moments with an answer ends in the same machine, by induction on the moments: an answer is taken
in both runs, and a moment without one is a wait of the longer run (R151). -/
theorem Inv.runOver_filter {bs : List Byte} {s t : State} (h : Inv bs s) (ps : List Pins)
    (hr : ∀ p ∈ ps, p.rst = false) (ht : runOver ps s = .next t) :
    ∃ t', runOver (ps.filter fun p => p.srcAck) s = .next t' ∧ sameMachine t t' := by
  induction ps generalizing bs s with
  | nil => exact ⟨t, ht, sameMachine_refl t⟩
  | cons p ps ih =>
    obtain ⟨hrp, hrs⟩ := List.forall_mem_cons.1 hr
    cases hs : s.stage.terminal with
    | true =>
      obtain rfl := Host.Outcome.next.inj ((runOver_of_terminal _ hs).symm.trans ht)
      exact ⟨_, runOver_of_terminal _ hs, sameMachine_refl s⟩
    | false =>
      obtain ⟨v, hv⟩ := step_of_runOver_cons hs ht
      obtain ⟨u, hu, rfl⟩ := stageBeat_of_step (s := s.withMoments (p :: ps)) hrp hv
      rcases stageBeat_cases hu with ⟨a, ⟨hreq, hp⟩, rfl⟩ | ⟨hno, rfl⟩
      · have hack : p.srcAck = true := by
          rw [← Bool.not_eq_false, ← presented_eq_nothing_iff]
          intro hnothing
          cases hp.symm.trans hnothing
        have hrun (qs : List Pins) : runOver (p :: qs) s = runOver qs (s.takeAnswer a) :=
          runOver_cons hs (h.step_withMoments_of_presented hs hrp hp qs)
        rw [List.filter_cons_of_pos hack, hrun]
        exact ih (h.takeAnswer hreq a) hrs ((hrun ps).symm.trans ht)
      · have hack : p.srcAck = false := by
          rcases stageBeat_wait_cases hu hno with hterm | ⟨-, hp⟩
          · exact absurd (hs.symm.trans hterm) Bool.false_ne_true
          · exact (presented_eq_nothing_iff p).1 hp
        rw [List.filter_cons_of_neg (by simp [hack])]
        exact ih h hrs ((runOver_cons hs hv).symm.trans ht)

/-- Settles O52: DECODE is the run over the moments from a reset, and `Inv.runOver_filter` leaves the silent ones
out. -/
theorem waitingChangesNoResult : Obligations.WaitingChangesNoResult :=
  fun s ps hr _ ht => (inv_restart s).runOver_filter ps hr ht

end Sys2Proof.Safety

namespace Sys2Proof.Machine

/-! ### The trainer bit flipped -/

/-- The byte at offset `k` of a stream whose trainer bit is flipped: bit 2 of header byte 6 (30_encoding.md R82). -/
def trainerFlip (k : Nat) (b : Byte) : Byte := if k = 6 then b ^^^ 0x04#8 else b

theorem set_six_eq_mapIdx (bytes : List Byte) :
    bytes.set 6 (bytes.getD 6 0#8 ^^^ 0x04#8) = bytes.mapIdx trainerFlip := by
  refine List.ext_getElem? fun k => ?_
  rw [List.getElem?_mapIdx, List.getElem?_set, List.getD_eq_getElem?_getD]
  by_cases hk : 6 = k
  · subst hk
    cases hb : bytes[6]? with
    | none => simp [List.getElem?_eq_none_iff.1 hb]
    | some b => simp [(List.getElem?_eq_some_iff.1 hb).1, trainerFlip]
  · have hid : trainerFlip k = id := funext fun b => if_neg (Ne.symm hk)
    rw [if_neg hk, hid, Option.map_id_fun, id]

/-- Past the header the flipped stream is the stream. -/
theorem mapIdx_trainerFlip_of_lt {k : Nat} (hk : 6 < k) (rest : List Byte) :
    rest.mapIdx (fun i => trainerFlip (k + i)) = rest := by
  refine List.ext_getElem? fun i => ?_
  have hid : trainerFlip (k + i) = id := funext fun b => if_neg (by omega)
  rw [List.getElem?_mapIdx, hid, Option.map_id_fun, id]

theorem mapIdx_trainerFlip_cons (k : Nat) (b : Byte) (rest : List Byte) :
    (b :: rest).mapIdx (fun i => trainerFlip (k + i)) =
      trainerFlip k b :: rest.mapIdx (fun i => trainerFlip (k + 1 + i)) := by
  simp only [List.mapIdx_cons, Nat.add_zero, Nat.add_assoc, Nat.add_comm 1]

/-- The machine over the flipped stream: the kept byte 6 and the trainer flag differ, where they are written. -/
def State.flipTrainer (s : State) : State :=
  { s with
    hbuf := s.hbuf.set 6 (s.hbuf[6].map (· ^^^ 0x04#8))
    x := { s.x with hasTrainer := s.x.hasTrainer.map (!·) } }

theorem flipTrainer_hbuf_get (s : State) (j : Fin 9) :
    s.flipTrainer.hbuf.get j = (s.hbuf.get j).map (trainerFlip j) := by
  simp only [State.flipTrainer, Vector.get_eq_getElem, Vector.getElem_set]
  split
  · next hj => simp only [← hj]; rfl
  · next hj =>
    have hid : trainerFlip j = id := funext fun b => if_neg (Ne.symm hj)
    rw [hid, Option.map_id_fun, id]

/-- Cell by cell, storing the flipped stream's byte is flipping the stored byte. -/
theorem storeHeaderByte_flipTrainer (s : State) (k : Nat) (b : Byte) :
    s.flipTrainer.storeHeaderByte k (trainerFlip k b) = (s.storeHeaderByte k b).flipTrainer := by
  have hbuf : (s.flipTrainer.storeHeaderByte k (trainerFlip k b)).hbuf = (s.storeHeaderByte k b).flipTrainer.hbuf := by
    refine Vector.ext fun j hj => ?_
    change Vector.get _ ⟨j, hj⟩ = Vector.get _ ⟨j, hj⟩
    rw [storeHeaderByte_get, flipTrainer_hbuf_get, flipTrainer_hbuf_get, storeHeaderByte_get]
    split
    · next hjk => rw [hjk]; rfl
    · rfl
  rw [State.storeHeaderByte_hbuf] at hbuf
  rw [State.storeHeaderByte, hbuf]
  rfl

/-- Once byte 6 is kept, the record of the flipped header differs in the trainer flag only (40_header_decoder.md
R117). -/
theorem finishHeader_flipTrainer {s : State} {b : Byte} (h : s.hbuf[6] = some b) :
    s.flipTrainer.finishHeader = s.finishHeader.flipTrainer := by
  have hbytes : s.flipTrainer.headerBytes = s.headerBytes.set 6 (s.headerBytes[6] ^^^ 0x04#8) := by
    refine Vector.ext fun j hj => ?_
    by_cases hj6 : 6 = j
    · subst hj6
      simp [State.headerBytes, State.hbufByte, State.flipTrainer, Vector.get_eq_getElem, h]
    · simp [State.headerBytes, State.hbufByte, State.flipTrainer, Vector.get_eq_getElem, hj6]
  rw [finishHeader_eq, finishHeader_eq, hbytes, decodeHeader_flip_trainerBit]
  rfl

end Sys2Proof.Machine

namespace Sys2Proof.Safety

open Sys2Proof Sys2Proof.Machine

/-- The two machines take the next byte of their streams alike, stage by stage. -/
theorem Inv.takeByte_flipTrainer {bs : List Byte} {s : State} (h : Inv bs s) (b : Byte) :
    s.flipTrainer.takeByte (trainerFlip bs.length b) = (s.takeByte b).flipTrainer := by
  cases hs : s.stage with
  | hdr =>
    have hpc : s.flipTrainer.pc = s.pc := rfl
    rw [takeByte_of_hdr hs, takeByte_of_hdr (s := s.flipTrainer) hs, hpc]
    by_cases hk : s.pc = 15#23
    · obtain ⟨-, -, -, -, hbuf⟩ := h.hdr hs
      have hlen : bs.length = 15 := by rw [← h.pc_eq, hk]; rfl
      have hsix : s.hbuf[6] = some bs[6] := (hbuf 6).trans (List.getElem?_eq_getElem (by omega))
      rw [hk, acceptHeaderByte_last, acceptHeaderByte_last, ← finishHeader_flipTrainer (s := s.advancePc) hsix]
      rfl
    · rw [acceptHeaderByte_eq_store hk, acceptHeaderByte_eq_store hk, h.pc_eq]
      exact storeHeaderByte_flipTrainer s.advancePc bs.length b
  | prg =>
    have hlen := h.past_header (.inl hs)
    rw [trainerFlip, if_neg (by omega), takeByte_of_prg hs, takeByte_of_prg (s := s.flipTrainer) hs,
      acceptPrgByte_eq_setStage, acceptPrgByte_eq_setStage]
    rfl
  | chr =>
    have hlen := h.past_header (.inr (.inl hs))
    rw [trainerFlip, if_neg (by omega), takeByte_of_chr hs, takeByte_of_chr (s := s.flipTrainer) hs,
      acceptChrByte_eq_setStage, acceptChrByte_eq_setStage]
    rfl
  | done => simp [State.takeByte, hs, State.flipTrainer]
  | fail => simp [State.takeByte, hs, State.flipTrainer]

/-- The moments of a source that still holds `rest` and then ends. -/
def momentsOf (rest : List Byte) : List Pins := rest.map Pins.byte ++ [Answer.pins .eos]

theorem Inv.stage_eq_done_of_terminal {bs : List Byte} {s : State} (h : Inv bs s) (herr : s.err = .none)
    (hs : s.stage.terminal = true) : s.stage = .done :=
  ((terminal_iff_done_or_fail _).1 hs).resolve_right fun hfail => h.fail_iff.1 hfail herr

/-- A finished run takes nothing more, and what is left of the flipped stream is what is left of the stream. -/
theorem Inv.runOver_flipTrainer_of_terminal {bs : List Byte} {s : State} (h : Inv bs s) (herr : s.err = .none)
    (hs : s.stage.terminal = true) (rest : List Byte) : ∃ t, runOver (momentsOf rest) s = .next t ∧
      runOver (momentsOf (rest.mapIdx fun i => trainerFlip (bs.length + i))) s.flipTrainer = .next t.flipTrainer := by
  have hlen := h.past_header (.inr (.inr (h.stage_eq_done_of_terminal herr hs)))
  rw [mapIdx_trainerFlip_of_lt (by omega)]
  exact ⟨_, runOver_of_terminal _ hs, runOver_of_terminal _ (s := s.flipTrainer) hs⟩

/-- The run over the flipped stream ends in the flipped machine, by induction on the bytes the source still holds. -/
theorem Inv.runOver_flipTrainer {bs bs' : List Byte} {s : State} (h : Inv bs s) (h' : Inv bs' s.flipTrainer)
    (herr : s.err = .none) (rest : List Byte) :
    ∃ t, runOver (momentsOf rest) s = .next t ∧
      runOver (momentsOf (rest.mapIdx fun i => trainerFlip (bs.length + i))) s.flipTrainer = .next t.flipTrainer := by
  induction rest generalizing bs bs' s with
  | nil =>
    cases hs : s.stage.terminal with
    | true => exact h.runOver_flipTrainer_of_terminal herr hs []
    | false =>
      exact ⟨_, (h.runOver_answer hs .eos []).trans (runOver_nil _),
        (h'.runOver_answer hs .eos []).trans (runOver_nil _)⟩
  | cons b rest ih =>
    cases hs : s.stage.terminal with
    | true => exact h.runOver_flipTrainer_of_terminal herr hs (b :: rest)
    | false =>
      have hbyte := h.takeByte_flipTrainer b
      obtain ⟨t, hrun, hrun'⟩ := ih (h.takeByte hs b) (hbyte ▸ h'.takeByte hs (trainerFlip bs.length b))
        ((takeByte_err s b).trans herr)
      rw [List.length_append, List.length_singleton] at hrun'
      refine ⟨t, (h.runOver_answer hs (.byte b) (momentsOf rest)).trans hrun, ?_⟩
      rw [mapIdx_trainerFlip_cons]
      refine (h'.runOver_answer hs (.byte (trainerFlip bs.length b)) (momentsOf _)).trans ?_
      rw [State.takeAnswer, hbyte]
      exact hrun'

theorem decode_canonical (bytes : List Byte) (s : State) :
    exec .decode (s.connect (.canonical true bytes)) = runOver (momentsOf bytes) s.restart := by
  rw [State.connect, canonical_moments]
  rfl

/-- Settles O51: the flipped stream ends in the flipped machine (`Inv.runOver_flipTrainer`), which differs in `hbuf` and
the trainer flag only; the reset state is its own flip. -/
theorem trainerIsNotSkipped : Obligations.TrainerIsNotSkipped := by
  unfold Obligations.TrainerIsNotSkipped
  intro bytes s
  obtain ⟨t, hrun, hrun'⟩ := (inv_restart s).runOver_flipTrainer (inv_restart s) rfl bytes
  simp only [List.length_nil, Nat.zero_add] at hrun'
  refine ⟨t, t.flipTrainer, (decode_canonical bytes s).trans hrun, ?_, rfl⟩
  rw [set_six_eq_mapIdx, decode_canonical]
  exact hrun'

end Sys2Proof.Safety
end

section
/-! Proof about a source that becomes unreadable at an offset (42_image_assembler.md R146, log 17): its moments are
those of the bytes before the offset and then `UNREADABLE`, or those of a canonical source. -/

namespace Sys2Proof.Machine

open Sys2Proof.Safety

/-! ### The moments of the source -/

/-- A source that answers with the bytes `l` and then with `a`, no byte, gives just these answers. -/
theorem answersFrom_eq {src : Source} {a : Answer} (ha : ∀ b, a ≠ .byte b) (l : List Byte) {p : Nat}
    {rest : List Byte} (hlen : l.length ≤ rest.length)
    (hl : ∀ i (hi : i < l.length), src.answer (p + i) = .byte l[i]) (hend : src.answer (p + l.length) = a) :
    src.answersFrom p rest = l.map Answer.byte ++ [a] := by
  induction l generalizing p rest with
  | nil =>
    have hp : src.answer p = a := hend
    cases rest with
    | nil => rw [Source.answersFrom, hp]; rfl
    | cons r rest =>
      rw [Source.answersFrom, hp]
      cases a with
      | byte b => exact absurd rfl (ha b)
      | eos => rfl
      | unreadable => rfl
  | cons b l ih =>
    cases rest with
    | nil => simp at hlen
    | cons r rest =>
      have hp : src.answer p = .byte b := hl 0 (by simp)
      rw [Source.answersFrom, hp, List.map_cons, List.cons_append]
      refine congrArg _ (ih (by simpa using hlen) (fun i hi => ?_) ?_)
      · rw [Nat.add_assoc, Nat.add_comm 1]
        exact hl (i + 1) (by simpa using hi)
      · rw [Nat.add_assoc, Nat.add_comm 1]
        exact hend

/-- The same from the first request on, as moments on the ports. -/
theorem answers_moments_eq {src : Source} {a : Answer} (ha : ∀ b, a ≠ .byte b) (l : List Byte)
    (hlen : l.length ≤ src.bytes.length) (hl : ∀ i (hi : i < l.length), src.answer i = .byte l[i])
    (hend : src.answer l.length = a) : src.answers.map Answer.pins = l.map Pins.byte ++ [a.pins] := by
  have h : src.answers = l.map Answer.byte ++ [a] :=
    answersFrom_eq ha l hlen (fun i hi => by rw [Nat.zero_add]; exact hl i hi) (by rw [Nat.zero_add]; exact hend)
  rw [h, List.map_append, List.map_map]
  rfl

theorem answer_of_lt {bytes : List Byte} {u i : Nat} (hiu : i ≠ u) (hi : i < bytes.length) :
    (⟨true, bytes, some u⟩ : Source).answer i = .byte bytes[i] := by
  simp [Source.answer, Ne.symm hiu, hi]

/-- The moments of a source that becomes unreadable within its bytes or right after them (42_image_assembler.md
R146). -/
theorem failing_moments {bytes : List Byte} {u : Nat} (hu : u ≤ bytes.length) :
    (⟨true, bytes, some u⟩ : Source).answers.map Answer.pins =
      (bytes.take u).map Pins.byte ++ [Answer.pins .unreadable] := by
  have hlen : (bytes.take u).length = u := by rw [List.length_take, Nat.min_eq_left hu]
  refine answers_moments_eq (fun _ h => by cases h) (bytes.take u) (hlen.trans_le hu) (fun i hi => ?_) ?_
  · rw [answer_of_lt (by omega) (by omega), List.getElem_take]
  · simp [Source.answer, hlen]

/-- A source that becomes unreadable only after it has ended is the canonical one. -/
theorem late_moments {bytes : List Byte} {u : Nat} (hu : bytes.length < u) :
    (⟨true, bytes, some u⟩ : Source).answers.map Answer.pins = momentsOf bytes := by
  refine answers_moments_eq (fun _ h => by cases h) bytes le_rfl (fun i hi => answer_of_lt (by omega) hi) ?_
  simp [Source.answer, hu.ne']

/-- A source that is never readable answers the first request, and no other. -/
theorem unreadable_moments (bytes : List Byte) (failAt : Option Nat) :
    (⟨false, bytes, failAt⟩ : Source).answers.map Answer.pins = [Answer.pins .unreadable] := by
  cases bytes <;> rfl

/-! ### The end of the run -/

/-- The end of a run, as the whole-stream function states it: observation and cursor, in a terminal stage. -/
def EndsWith (t : State) (e : RunEnd) : Prop := t.obs = some e.obs ∧ t.pc.toNat = e.pc ∧ t.stage.terminal = true

end Sys2Proof.Machine

namespace Sys2Proof.Safety

open Sys2Proof Sys2Proof.Machine

/-- A machine that still asks for a byte has not come to the end of any stream that begins with the bytes it has
accepted. -/
theorem Inv.length_lt_beats {bs : List Byte} {s : State} (h : Inv bs s) (herr : s.err = .none)
    (hs : s.stage.terminal = false) (more : List Byte) : bs.length < (decodeStream true (bs ++ more)).beats := by
  obtain ⟨n, t, hend, -, hbeats, -⟩ := h.endsAt_decodeStream herr more
  cases hend with
  | stop hterm => exact absurd (hs.symm.trans hterm) Bool.false_ne_true
  | next _ _ _ => omega

/-- No stream takes more beats than its bytes and one more (42_image_assembler.md R145). -/
theorem decodeStream_beats_le (bytes : List Byte) : (decodeStream true bytes).beats ≤ bytes.length + 1 := by
  obtain ⟨n, t, -, hn, hbeats, -⟩ := inv_reset.endsAt_decodeStream rfl bytes
  rw [List.nil_append, List.length_nil, Nat.add_zero] at hbeats
  rw [hbeats]
  exact hn

/-- A finished run has not asked for the offset at which the source becomes unreadable (R146). -/
theorem Inv.endsWith_of_terminal {bs : List Byte} {s : State} (h : Inv bs s) (herr : s.err = .none)
    (hs : s.stage.terminal = true) (rest : List Byte) {u : Nat} (hu : bs.length ≤ u) (ps : List Pins) :
    EndsWith (s.withMoments ps) (decodeSource ⟨true, bs ++ rest, some u⟩) := by
  obtain ⟨hobs, hpc, hbeats⟩ := h.decodeStream_of_terminal herr hs rest
  rw [decodeSource_miss rfl (by rw [hbeats]; exact hu)]
  exact ⟨hobs, h.pc_eq.trans hpc.symm, hs⟩

/-- From a state of a run that has accepted `bs`, a source that still gives `rest` and is then unreadable, whatever
bytes it holds beyond, ends the run as R146 says, by induction on `rest`. -/
theorem Inv.runOver_unreadable {bs : List Byte} {s : State} (h : Inv bs s) (herr : s.err = .none)
    (rest more : List Byte) :
    ∃ t, runOver (rest.map Pins.byte ++ [Answer.pins .unreadable]) s = .next t ∧
      EndsWith t (decodeSource ⟨true, bs ++ (rest ++ more), some (bs.length + rest.length)⟩) := by
  induction rest generalizing bs s with
  | nil =>
    cases hs : s.stage.terminal with
    | true => exact ⟨_, runOver_of_terminal _ hs, h.endsWith_of_terminal herr hs _ le_rfl _⟩
    | false =>
      refine ⟨_, (h.runOver_answer hs .unreadable []).trans (runOver_nil _), ?_⟩
      rw [decodeSource_hit rfl rfl (h.length_lt_beats herr hs more)]
      exact ⟨rfl, h.pc_eq, rfl⟩
  | cons b rest ih =>
    cases hs : s.stage.terminal with
    | true => exact ⟨_, runOver_of_terminal _ hs, h.endsWith_of_terminal herr hs _ (by omega) _⟩
    | false =>
      obtain ⟨t, hrun, hend⟩ := ih (h.takeByte hs b) ((takeByte_err s b).trans herr)
      rw [← List.append_cons, List.length_append, List.length_singleton, Nat.add_assoc, Nat.add_comm 1] at hend
      exact ⟨t, (h.runOver_answer hs (.byte b) _).trans hrun, hend⟩

/-- The run over a canonical source (O48). -/
theorem decode_canonical_endsWith (readable : Bool) (bytes : List Byte) (s : State) :
    ∃ t, exec .decode (s.connect (.canonical readable bytes)) = .next t ∧
      EndsWith t (decodeStream readable bytes) := by
  obtain ⟨t, -, hrun, hobs, hpc, hterm, -⟩ := wholeStreamFunction readable bytes s
  exact ⟨t, hrun, hobs, hpc, hterm⟩

/-- Settles O49: a source that is not readable, or that ends before it becomes unreadable, is a canonical one (O48);
else `Inv.runOver_unreadable` from a reset, over the bytes before the offset. -/
theorem unreadableInMidStream : Obligations.UnreadableInMidStream := by
  unfold Obligations.UnreadableInMidStream
  rintro ⟨readable, bytes, failAt⟩ s
  cases failAt with
  | none => exact decode_canonical_endsWith readable bytes s
  | some u =>
    cases readable with
    | false =>
      rw [State.connect, unreadable_moments, ← canonical_unreadable_moments bytes, decodeSource_unreadable rfl,
        ← decodeStream_unreadable bytes]
      exact decode_canonical_endsWith false bytes s
    | true =>
      rcases Nat.lt_or_ge bytes.length u with hlate | hu
      · rw [State.connect, late_moments hlate, decodeSource_miss rfl ((decodeStream_beats_le bytes).trans hlate)]
        obtain ⟨t, hrun, hend⟩ := decode_canonical_endsWith true bytes s
        exact ⟨t, (decode_canonical bytes s).symm.trans hrun, hend⟩
      · obtain ⟨t, hrun, hend⟩ := (inv_restart s).runOver_unreadable rfl (bytes.take u) (bytes.drop u)
        rw [List.nil_append, List.take_append_drop, List.length_take, Nat.min_eq_left hu, List.length_nil,
          Nat.zero_add] at hend
        rw [State.connect, failing_moments hu, decode_withMoments]
        exact ⟨t, hrun, hend⟩

end Sys2Proof.Safety
end
